-- ==== Sys2Proof/Word.lean ====
section
/-! DEFINITION. The word types of the PSG core (00_scope.md section 5, rule R3; 10_state.md rule R29). -/

namespace Sys2Proof

/-- A command word or a response word (30_encoding.md rules R61, R65). -/
abbrev Word := BitVec 32

/-- A register byte, or an 8-bit scratch cell. -/
abbrev Byte := BitVec 8

/-- A 5-bit amplitude sample, 0 to 31 (00_scope.md rule R3, `AMP_BITS`). -/
abbrev Amp := BitVec 5

/-- A 16-bit element of the destination buffer (10_state.md rule R29). -/
abbrev Sample := BitVec 16

/-- A channel index: the six channels 0 to 5 (00_scope.md rule R3, `NCH`). -/
abbrev Chan := Fin 6

end Sys2Proof
end

