-- ==== Sys2Proof/Syntax.lean ====
section
/-! DEFINITION. The thirteen commands, one constructor per row of spec/opcode_table.json (30_encoding.md rule R63).
An operand has the width of its field in the command word; WellFormed.lean checks the ranges. -/

namespace Sys2Proof

/-- A command. Operand names are those of 30_encoding.md rule R62: `imm` = `IMM`, `ch` = `CH`, `idx` = `IDX`,
`data` = `DATA`. -/
inductive Instr where
  /-- `INIT` -/
  | init
  /-- `SHUTDOWN` -/
  | shutdown
  /-- `CFGRATE rate` -/
  | cfgrate (imm : BitVec 24)
  /-- `CFGSTEREO flag` -/
  | cfgstereo (imm : BitVec 24)
  /-- `WRGVOL data` -/
  | wrgvol (data : Byte)
  /-- `WRREG ch, idx, data` -/
  | wrreg (ch : BitVec 3) (idx : Byte) (data : Byte)
  /-- `WRWAVE ch, idx, data` -/
  | wrwave (ch : BitVec 3) (idx : Byte) (data : Byte)
  /-- `PUSHDA ch, data` -/
  | pushda (ch : BitVec 3) (data : Byte)
  /-- `TICK n` -/
  | tick (imm : BitVec 24)
  /-- `RDGVOL` -/
  | rdgvol
  /-- `RDREG ch, idx` -/
  | rdreg (ch : BitVec 3) (idx : Byte)
  /-- `RDWAVE ch, idx` -/
  | rdwave (ch : BitVec 3) (idx : Byte)
  /-- `RDSTAT` -/
  | rdstat
  deriving DecidableEq, Repr, Inhabited

end Sys2Proof
end

