-- ==== Sys2Proof/WellFormed.lean ====
section
/-! DEFINITION. The range constraints of 30_encoding.md rules R63 and R66 on a command's operands. A term that fails
one has no legal command word. -/

namespace Sys2Proof

/-- The channel operand names one of the six channels (rule R66: "`CH` is 6 or 7" is illegal). -/
def channelInRange (ch : BitVec 3) : Bool := decide (ch.toNat ≤ 5)

/-- The operand ranges of 30_encoding.md rule R63, column "range constraints". -/
def Instr.wellFormed : Instr → Bool
  | .init => true
  | .shutdown => true
  | .cfgrate _ => true
  | .cfgstereo imm => decide (imm.toNat ≤ 1)
  | .wrgvol _ => true
  | .wrreg ch idx _ => channelInRange ch && decide (idx.toNat ≤ 5)
  | .wrwave ch idx _ => channelInRange ch && decide (idx.toNat ≤ 31)
  | .pushda ch _ => channelInRange ch
  | .tick _ => true
  | .rdgvol => true
  | .rdreg ch idx => channelInRange ch && decide (idx.toNat ≤ 6)
  | .rdwave ch idx => channelInRange ch && decide (idx.toNat ≤ 31)
  | .rdstat => true

end Sys2Proof
end

