-- ==== Sys2Proof/Decode.lean ====
section
/-! DEFINITION. The command word: its fields, the total decoder and the encoder (30_encoding.md rules R61 to R63, R66).
A word the decoder refuses is an illegal command word. -/

namespace Sys2Proof

/-! ### The fields of a command word (rules R61, R62) -/

/-- `OP` = `W[31:28]`. -/
def fieldOp (w : Word) : BitVec 4 := w.extractLsb' 28 4
/-- `W[27]`, 0 in every format. -/
def fieldBit27 (w : Word) : BitVec 1 := w.extractLsb' 27 1
/-- `CH` = `W[26:24]`. -/
def fieldCh (w : Word) : BitVec 3 := w.extractLsb' 24 3
/-- `IDX` = `W[23:16]`. -/
def fieldIdx (w : Word) : Byte := w.extractLsb' 16 8
/-- `W[15:8]`, 0 in formats Z and R. -/
def fieldMid (w : Word) : Byte := w.extractLsb' 8 8
/-- `DATA` = `W[7:0]`. -/
def fieldData (w : Word) : Byte := w.extractLsb' 0 8
/-- `IMM` = `W[23:0]`. -/
def fieldImm (w : Word) : BitVec 24 := w.extractLsb' 0 24

/-! ### What a format requires to be 0 (rule R63, column "must be 0") -/

/-- Format Z: every bit below the opcode is 0. -/
def zeroOperand (w : Word) : Bool := w.extractLsb' 0 28 == 0
/-- Format I: bits 27:24 are 0. -/
def immFormat (w : Word) : Bool := w.extractLsb' 24 4 == 0
/-- Format R: bit 27 and bits 15:8 are 0. -/
def regFormat (w : Word) : Bool := fieldBit27 w == 0 && fieldMid w == 0

/-- `v` if the condition holds. -/
def guarded (b : Bool) (v : Instr) : Option Instr := if b then some v else none

/-- The channel range of rule R63: `CH` ≤ 5. -/
def chOk (w : Word) : Bool := decide ((fieldCh w).toNat ≤ 5)

/-- The index range of rule R63: `IDX` at most `bound`. -/
def idxOk (bound : Nat) (w : Word) : Bool := decide ((fieldIdx w).toNat ≤ bound)

/-- The decoder: total on all 2^32 words, `none` on an illegal word (rules R63, R66, R221). -/
def decode (w : Word) : Option Instr :=
  match (fieldOp w).toNat with
  | 0x1 => guarded (zeroOperand w) .init
  | 0x2 => guarded (zeroOperand w) .shutdown
  | 0x3 => guarded (immFormat w) (.cfgrate (fieldImm w))
  | 0x4 => guarded (immFormat w && decide ((fieldImm w).toNat ≤ 1)) (.cfgstereo (fieldImm w))
  | 0x5 => guarded (regFormat w && fieldCh w == 0 && fieldIdx w == 0) (.wrgvol (fieldData w))
  | 0x6 => guarded (regFormat w && chOk w && idxOk 5 w) (.wrreg (fieldCh w) (fieldIdx w) (fieldData w))
  | 0x7 => guarded (regFormat w && chOk w && idxOk 31 w) (.wrwave (fieldCh w) (fieldIdx w) (fieldData w))
  | 0x8 => guarded (regFormat w && chOk w && fieldIdx w == 0) (.pushda (fieldCh w) (fieldData w))
  | 0x9 => guarded (immFormat w) (.tick (fieldImm w))
  | 0xA => guarded (zeroOperand w) .rdgvol
  | 0xB => guarded (regFormat w && chOk w && idxOk 6 w && fieldData w == 0) (.rdreg (fieldCh w) (fieldIdx w))
  | 0xC => guarded (regFormat w && chOk w && idxOk 31 w && fieldData w == 0) (.rdwave (fieldCh w) (fieldIdx w))
  | 0xD => guarded (zeroOperand w) .rdstat
  | _ => none

/-! ### The encoder (rule R61) -/

/-- Format Z. -/
def formatZ (op : BitVec 4) : Word := op ++ (0 : BitVec 28)
/-- Format I. -/
def formatI (op : BitVec 4) (imm : BitVec 24) : Word := op ++ ((0 : BitVec 4) ++ imm)
/-- Format R. -/
def formatR (op : BitVec 4) (ch : BitVec 3) (idx data : Byte) : Word :=
  op ++ ((0 : BitVec 1) ++ (ch ++ (idx ++ ((0 : Byte) ++ data))))

/-- The opcode of a command (rule R63, column "OP"). -/
def opcodeOf : Instr → BitVec 4
  | .init => 0x1
  | .shutdown => 0x2
  | .cfgrate _ => 0x3
  | .cfgstereo _ => 0x4
  | .wrgvol _ => 0x5
  | .wrreg _ _ _ => 0x6
  | .wrwave _ _ _ => 0x7
  | .pushda _ _ => 0x8
  | .tick _ => 0x9
  | .rdgvol => 0xA
  | .rdreg _ _ => 0xB
  | .rdwave _ _ => 0xC
  | .rdstat => 0xD

/-- The command word of a command. -/
def encode (i : Instr) : Word :=
  match i with
  | .init => formatZ (opcodeOf i)
  | .shutdown => formatZ (opcodeOf i)
  | .cfgrate imm => formatI (opcodeOf i) imm
  | .cfgstereo imm => formatI (opcodeOf i) imm
  | .wrgvol data => formatR (opcodeOf i) 0 0 data
  | .wrreg ch idx data => formatR (opcodeOf i) ch idx data
  | .wrwave ch idx data => formatR (opcodeOf i) ch idx data
  | .pushda ch data => formatR (opcodeOf i) ch 0 data
  | .tick imm => formatI (opcodeOf i) imm
  | .rdgvol => formatZ (opcodeOf i)
  | .rdreg ch idx => formatR (opcodeOf i) ch idx 0
  | .rdwave ch idx => formatR (opcodeOf i) ch idx 0
  | .rdstat => formatZ (opcodeOf i)

/-! ### A word of the opcode table -/

/-- The 32-bit command word whose low `nbits` bits are those of `w` and whose other bits are 0. There is one length,
32 bits, and no byte order (30_encoding.md rule R61, 20_memory.md rule R42), so bit i of `w` is `W[i]`. -/
def tableWord (nbits w : Nat) : Word := BitVec.ofNat 32 (w % 2 ^ nbits)

/-- What the decoder reads from an opcode-table word of `nbits` bits; no command is longer than 32 bits. -/
def decodeTableWord (nbits w : Nat) : Option Instr :=
  if nbits ≤ 32 then decode (tableWord nbits w) else none

end Sys2Proof
end

