-- ==== Sys2Proof/Config.lean ====
section
/-! DEFINITION. The implementation parameters of the block (00_scope.md rule R4) as one record. The state carries a
record of this type (log 3), so a statement about every state is a statement about every choice of parameters. -/

namespace Sys2Proof

/-- The last emitted bipolar noise level: one of the two constants +7020 and -7020, never a third value
(10_state.md rule R26; 00_scope.md rule R3, `NOISE_LEVEL`). -/
inductive NoiseLevel where
  | plus
  | minus
  deriving DecidableEq, Repr, Inhabited

/-- The parameter `DIV_ROUND`: how `/ 64` and `/ 4096` round a negative quotient (00_scope.md rule R4). -/
inductive DivRound where
  | trunc
  | floor
  deriving DecidableEq, Repr, Inhabited

/-- The parameter `SCRATCH_READ`: how the mixer reads an 8-bit scratch cell (00_scope.md rule R4). -/
inductive ScratchRead where
  | unsigned
  | signed
  deriving DecidableEq, Repr, Inhabited

/-- The parameters of 00_scope.md rule R4. `BAL_RATIO`, a positive rational, is `balNum / balDen`. -/
structure Config where
  clock           : Nat
  daDivisor       : Nat
  noiseTap        : Word
  noiseSeed       : Vector Word 6
  noiseLevelReset : NoiseLevel
  volTable        : Vector Nat 32
  balNum          : Nat
  balDen          : Nat
  divRound        : DivRound
  scratchRead     : ScratchRead
  bufCap          : Nat
  deriving DecidableEq, Repr, Inhabited

/-- The constraints rule R4 of 00_scope.md puts on the parameters. The bound 74 on `VOL_TABLE` entries is not one of
them: the spec defines what a larger entry does (44_noise_generator.md rule R155; log 12). -/
def Config.lawful (c : Config) : Bool :=
  decide (1 ≤ c.clock) && decide (1 ≤ c.daDivisor) && decide (1 ≤ c.balNum) && decide (1 ≤ c.balDen)
    && decide (1 ≤ c.bufCap) && decide (c.noiseSeed.toList.Pairwise (· ≠ ·))

end Sys2Proof
end

