-- ==== Sys2Proof/Machine/Parameters.lean ====
section
/-! DEFINITION. The vector parameter set P0 (00_scope.md rule R4), the parameters of `State.reset` and of the tests.
P0 is not normative (log 3): no statement rests on it. -/

namespace Sys2Proof.Machine

/-- The column "P0" of rule R4: the values 95_test_vectors.md uses. -/
def vectorParameters : Config where
  clock := 3579545
  daDivisor := 511
  noiseTap := 0x00000004
  noiseSeed := #v[0x51F631E4, 0x51F631E5, 0x51F631E6, 0x51F631E7, 0x51F631E8, 0x51F631E9]
  noiseLevelReset := .plus
  volTable := #v[0, 1, 1, 2, 2, 2, 3, 3, 4, 4, 5, 5, 6, 7, 8, 9, 10, 11, 13, 15, 17, 19, 21, 24, 27, 31, 35, 39, 44, 50,
    56, 64]
  balNum := 11
  balDen := 10
  divRound := .trunc
  scratchRead := .unsigned
  bufCap := 2048

end Sys2Proof.Machine
end

