-- ==== Sys2Proof/Machine/Chip.lean ====
section
/-! DEFINITION. The Chip State of 10_state.md rule R10: the registers, tables, queues and accumulators of the six
channels, the chip-level registers and the two buffers, with the values INIT gives them (rule R32). -/

namespace Sys2Proof.Machine

/-- A table or queue of 5-bit cells: the cells that do not read 0, each with its index, indices strictly rising
(10_state.md rules R20, R21: the reset value of every cell is 0; log 13). -/
abbrev Memory := List (Nat × Amp)

/-- What a cell that is not listed reads as: the reset value of every table and queue cell (10_state.md rules R20, R21). -/
def unlistedCell : Amp := 0

/-- The lifecycle state `LC` (10_state.md rule R27). -/
inductive LifeCycle where
  | off
  | run
  deriving DecidableEq, Repr, Inhabited

/-- One channel (10_state.md rules R12 to R26). -/
structure Channel where
  /-- `REG[ch][0]`, low byte of the period (R13). -/
  freqLo  : Byte
  /-- `REG[ch][1]`, whose low nibble is the high part of the period (R13). -/
  freqHi  : Byte
  /-- `REG[ch][2]`: `ON`, `DDA`, unused, `VOL` (R14). -/
  ctrl    : Byte
  /-- `REG[ch][3]`: `BL`, `BR` (R15). -/
  bal     : Byte
  /-- `REG[ch][4]`: `NE`, unused, `NRATE` (R16). -/
  noise   : Byte
  /-- `REG[ch][5]`, the moving waveform pointer (R17). -/
  widx    : Byte
  /-- `DACNT[ch]`, queue slots pushed and not yet consumed (R18). -/
  dacnt   : BitVec 11
  /-- `WAVE[ch][0..31]` (R20). -/
  wave    : Memory
  /-- `DAQ[ch][0..1023]` (R21). -/
  daq     : Memory
  /-- `DAWR[ch]`, the queue's write pointer (R21). -/
  dawr    : BitVec 10
  /-- `WPHASE[ch]`, the wave phase accumulator (R22). -/
  wphase  : Word
  /-- `DAPHASE[ch]`, the direct-audio phase accumulator (R23). -/
  daphase : Word
  /-- `NOISE_K[ch]`, the noise tick counter (R24). -/
  noiseK  : Word
  /-- `LFSR[ch]`, the noise shift register (R25). -/
  lfsr    : Word
  /-- `NLEVEL[ch]`, the last emitted noise level (R26). -/
  nlevel  : NoiseLevel
  deriving DecidableEq, Repr, Inhabited

/-- The Chip State less the two status elements `LC` and `FAULT` (10_state.md rule R10). -/
structure Chip where
  /-- `GVOL` (R11). -/
  gvol   : Byte
  /-- `STEREO` (R11). -/
  stereo : Bool
  /-- `RATE` (R11). -/
  rate   : BitVec 24
  /-- The six channels. -/
  chans  : Vector Channel 6
  /-- The cells of `SCR` that hold a specified value: cell i is entry i (R29; log 8). -/
  scr    : List Byte
  /-- The cells of `DEST` that hold a specified value: cell i is entry i (R29; log 8). -/
  dest   : List Sample
  deriving DecidableEq, Repr, Inhabited

/-- A channel as INIT leaves it, for a seed and a reset level (10_state.md rule R32). -/
def resetChannel (seed : Word) (level : NoiseLevel) : Channel where
  freqLo := 0
  freqHi := 0
  ctrl := 0
  bal := 0
  noise := 0
  widx := 0
  dacnt := 0
  wave := []
  daq := []
  dawr := 0
  wphase := 0
  daphase := 0
  noiseK := 0
  lfsr := seed
  nlevel := level

/-- The Chip State as INIT leaves it: `LFSR[ch]` at `NOISE_SEED[ch]`, `NLEVEL[ch]` at `NOISE_LEVEL_RESET`, no cell of
`SCR` or `DEST` with a specified value, everything else 0 (10_state.md rule R32). -/
def resetChip (cfg : Config) : Chip where
  gvol := 0
  stereo := false
  rate := 0
  chans := #v[resetChannel (cfg.noiseSeed.get 0) cfg.noiseLevelReset,
    resetChannel (cfg.noiseSeed.get 1) cfg.noiseLevelReset, resetChannel (cfg.noiseSeed.get 2) cfg.noiseLevelReset,
    resetChannel (cfg.noiseSeed.get 3) cfg.noiseLevelReset, resetChannel (cfg.noiseSeed.get 4) cfg.noiseLevelReset,
    resetChannel (cfg.noiseSeed.get 5) cfg.noiseLevelReset]
  scr := []
  dest := []

end Sys2Proof.Machine
end

