-- ==== Sys2Proof/Machine/State.lean ====
section
/-! DEFINITION. The machine's state as plain data, the reasons a step can stop, and the states after reset and at
power-on. -/

namespace Sys2Proof

/-- The free value of the model (log 2): what the elements of the Chip State hold where the spec leaves them
unspecified, before the first INIT (70_reset_and_hazards.md rule R250) and after a SHUTDOWN
(46_lifecycle_config.md rule R201). Nothing is known of it; the argument tells one occasion from another. -/
opaque Config.unspecifiedChip : Nat → Machine.Chip

end Sys2Proof

namespace Sys2Proof.Machine

/-- The state: the Chip State with its status elements (10_state.md rule R10), the three ports (30_encoding.md rule
R60), the parameters (00_scope.md rule R4) and the model's own counter of free values. -/
structure State where
  /-- `LC` (10_state.md rule R27). -/
  lc        : LifeCycle
  /-- `FAULT`, the sticky code of the first fault since INIT (10_state.md rule R28). -/
  fault     : BitVec 3
  /-- Every other element of the Chip State. -/
  chip      : Chip
  /-- The parameters; no step writes them (log 3). -/
  cfg       : Config
  /-- The command port: words issued by the host and not yet executed, oldest first (log 5). -/
  cmdIn     : List Word
  /-- The response port: the last response word (30_encoding.md rule R65; log 6). -/
  resp      : Word
  /-- The sample port: the elements the last command delivered, in index order (45_balance_mixer.md rule R179; log 7). -/
  sampleOut : List Sample
  /-- The model's own: how many times the free value has been drawn (log 2). -/
  freeCount : Nat
  deriving DecidableEq, Repr

/-- Why a step stops. The five faults of 60_exceptions.md rule R220 are not here: the spec says what each does, so
each is a next state (`raise`). -/
inductive Fault where
  /-- Raised by TICK when the parameter record breaks a constraint of 00_scope.md rule R4 (a zero divisor, say): the
  spec has no block with such parameters, and no step changes them. Safe (log 4). -/
  | parametersOutOfRange
  deriving DecidableEq, Repr

/-- Why a step is refused. -/
inductive Refusal where
  /-- Answered by an arm of `exec` whose instruction has no meaning yet. No arm does. Safe. -/
  | notModelled (mnemonic : String)
  deriving DecidableEq, Repr

/-- The state right after reset, the block's reset being the INIT command (70_reset_and_hazards.md rule R251;
10_state.md rule R32; log 1), with nothing issued on the command port. -/
def State.reset : State where
  lc := .run
  fault := 0
  chip := resetChip vectorParameters
  cfg := vectorParameters
  cmdIn := []
  resp := 0
  sampleOut := []
  freeCount := 0

/-- The state at power-on, before any INIT (70_reset_and_hazards.md rule R250), for given parameters: `LC = OFF`,
`FAULT = 0`, every other element of the Chip State unspecified. -/
def State.powerOn (cfg : Config) : State where
  lc := .off
  fault := 0
  chip := Config.unspecifiedChip 0
  cfg := cfg
  cmdIn := []
  resp := 0
  sampleOut := []
  freeCount := 1

end Sys2Proof.Machine
end

