-- ==== Sys2Proof/Machine/Flags.lean ====
section
/-! DEFINITION. The status elements: the block has no arithmetic flags and no condition codes (10_state.md section 6).
What it has is the sticky `FAULT` code, the lifecycle bit, and the words that report them (30_encoding.md rule R65,
46_lifecycle_config.md rule R204, 60_exceptions.md rules R220, R222). -/

namespace Sys2Proof.Machine

/-- The five faults of 60_exceptions.md rule R220. -/
inductive FaultName where
  | illegalCommand
  | notRunning
  | bufferTooSmall
  | rateNotConfigured
  | queueOverflow
  deriving DecidableEq, Repr

/-- The code of a fault (rule R220, column "code"). -/
def faultCode : FaultName → BitVec 3
  | .illegalCommand => 1
  | .notRunning => 2
  | .bufferTooSmall => 3
  | .rateNotConfigured => 4
  | .queueOverflow => 5

/-- `FAULT` keeps the first code since INIT (rule R222: "if FAULT = 0 then FAULT <- c"). -/
def recordFault (old code : BitVec 3) : BitVec 3 := if old = 0 then code else old

/-- The response word: `RESP[18:16]` = `STATUS`, `RESP[15:0]` = `RDATA`, the rest 0 (30_encoding.md rule R65). -/
def responseWord (status : BitVec 3) (rdata : BitVec 16) : Word := (status ++ rdata).setWidth 32

/-- `LC` as a bit: `OFF` = 0, `RUN` = 1 (10_state.md rule R27). -/
def lifeCycleBit : LifeCycle → BitVec 1
  | .off => 0
  | .run => 1

/-- What RDSTAT reads: `(FAULT << 1) | LC` (46_lifecycle_config.md rule R204). -/
def statusData (fault : BitVec 3) (lc : LifeCycle) : BitVec 16 := (fault ++ lifeCycleBit lc).setWidth 16

end Sys2Proof.Machine
end

