-- ==== Sys2Proof/Machine/Ops.lean ====
section
/-! DEFINITION. The named operations over tables, queues, channels and ports, and the one operation that takes a fault.
There is no return from a fault: none is entered (60_exceptions.md rule R227). -/

namespace Sys2Proof.Machine

/-- The outcome of a command. -/
abbrev Result := Host.Outcome State Fault Refusal

/-! ### Tables and queues (20_memory.md rules R40, R43, R44) -/

/-- Read of cell `i`. -/
def memRead : Memory → Nat → Amp
  | [], _ => unlistedCell
  | (j, v) :: rest, i => if i = j then v else memRead rest i

/-- Write of cell `i`, in the canonical form: a cell that comes to read as an unlisted one is not listed. -/
def memWrite : Memory → Nat → Amp → Memory
  | [], i, v => if v = unlistedCell then [] else [(i, v)]
  | (j, u) :: rest, i, v =>
    if i < j then (if v = unlistedCell then (j, u) :: rest else (i, v) :: (j, u) :: rest)
    else if i = j then (if v = unlistedCell then rest else (i, v) :: rest)
    else (j, u) :: memWrite rest i v

/-- The canonical form of a table or queue of `size` cells: indices strictly rising and below `size`, no listed cell
equal to what an unlisted one reads as (log 13). -/
def Memory.wf (size : Nat) (m : Memory) : Bool :=
  decide (m.Pairwise fun a b => a.1 < b.1) && m.all fun p => decide (p.1 < size) && !decide (p.2 = unlistedCell)

/-! ### Channels -/

/-- Channel `ch` of the Chip State. -/
def Chip.chan (c : Chip) (ch : Chan) : Channel := c.chans.get ch

/-- The Chip State with channel `ch` replaced. -/
def Chip.setChan (c : Chip) (ch : Chan) (x : Channel) : Chip := { c with chans := c.chans.set ch x }

/-- The state with channel `ch` changed by `f`. -/
def updateChannel (s : State) (ch : Chan) (f : Channel → Channel) : State :=
  { s with chip := s.chip.setChan ch (f (s.chip.chan ch)) }

/-- The write side of the direct-audio queue: store at the write pointer, then move the pointer and the count
(20_memory.md rule R49, 40_register_bank.md rule R84). -/
def queuePush (v : Amp) (c : Channel) : Channel :=
  { c with daq := memWrite c.daq c.dawr.toNat v, dawr := c.dawr + 1, dacnt := c.dacnt + 1 }

/-! ### Answering a command -/

/-- A command that executed: its response word, and nothing on the sample port (30_encoding.md rule R65). -/
def answer (rdata : BitVec 16) (s : State) : State :=
  { s with resp := responseWord 0 rdata, sampleOut := [] }

/-- Taking a fault (60_exceptions.md rule R222): the first code is kept, the response carries the code, no other state
changes, nothing is delivered on the sample port. -/
def raise (f : FaultName) (s : State) : Result :=
  .next { s with fault := recordFault s.fault (faultCode f), resp := responseWord (faultCode f) 0, sampleOut := [] }

/-- The lifecycle test in front of every command but INIT and RDSTAT (60_exceptions.md rule R223). -/
def whileRunning (s : State) (k : Result) : Result :=
  match s.lc with
  | .off => raise .notRunning s
  | .run => k

/-- An operand outside its range makes the command illegal, before the lifecycle is looked at (30_encoding.md rule R66,
60_exceptions.md rule R221; log 11). -/
def withOperand {α : Type} (operand : Option α) (s : State) (k : α → Result) : Result :=
  match operand with
  | some a => k a
  | none => raise .illegalCommand s

end Sys2Proof.Machine
end

