-- ==== Sys2Proof/Machine/Operands.lean ====
section
/-! DEFINITION. The operand forms of the commands (30_encoding.md rules R62 to R64) and the fields of the registers
(10_state.md rules R11 to R16). -/

namespace Sys2Proof.Machine

/-! ### Operands -/

/-- The byte registers of a channel, by the names of 30_encoding.md rule R64. -/
inductive RegName where
  | freqLo
  | freqHi
  | ctrl
  | bal
  | noise
  | widx
  deriving DecidableEq, Repr

/-- What RDREG can read: a byte register or the count `DACNT` (30_encoding.md rule R64). -/
inductive BankEntry where
  | byte (r : RegName)
  | count
  deriving DecidableEq, Repr

/-- The channel operand: 0 to 5 (rule R62). -/
def channelOperand (ch : BitVec 3) : Option Chan :=
  if h : ch.toNat < 6 then some ⟨ch.toNat, h⟩ else none

/-- WRREG's register operand: 0 to 5 (rules R63, R64). -/
def writeRegOperand (idx : Byte) : Option RegName :=
  match idx.toNat with
  | 0 => some .freqLo
  | 1 => some .freqHi
  | 2 => some .ctrl
  | 3 => some .bal
  | 4 => some .noise
  | 5 => some .widx
  | _ => none

/-- RDREG's register operand: 0 to 6 (rules R63, R64). -/
def readRegOperand (idx : Byte) : Option BankEntry :=
  if idx.toNat = 6 then some .count else (writeRegOperand idx).map .byte

/-- The waveform index operand: 0 to 31 (rule R63). -/
def waveOperand (idx : Byte) : Option (Fin 32) :=
  if h : idx.toNat < 32 then some ⟨idx.toNat, h⟩ else none

/-- CFGSTEREO's flag operand: 0 or 1 (rule R63). -/
def flagOperand (imm : BitVec 24) : Option Bool :=
  match imm.toNat with
  | 0 => some false
  | 1 => some true
  | _ => none

/-- `DATA[4:0]`, what a table or queue cell keeps of a data byte (40_register_bank.md rules R83, R84). -/
def cellData (data : Byte) : Amp := data.extractLsb' 0 5

/-! ### The register bank -/

/-- `REG[ch][i]`. -/
def Channel.readReg (c : Channel) : RegName → Byte
  | .freqLo => c.freqLo
  | .freqHi => c.freqHi
  | .ctrl => c.ctrl
  | .bal => c.bal
  | .noise => c.noise
  | .widx => c.widx

/-- `REG[ch][i] <- v`: all 8 bits are stored (40_register_bank.md rule R82). -/
def Channel.writeReg (c : Channel) (r : RegName) (v : Byte) : Channel :=
  match r with
  | .freqLo => { c with freqLo := v }
  | .freqHi => { c with freqHi := v }
  | .ctrl => { c with ctrl := v }
  | .bal => { c with bal := v }
  | .noise => { c with noise := v }
  | .widx => { c with widx := v }

/-- What RDREG answers for a bank entry, zero-extended to 16 bits (40_register_bank.md rule R86). -/
def Channel.readEntry (c : Channel) : BankEntry → BitVec 16
  | .byte r => (c.readReg r).setWidth 16
  | .count => c.dacnt.setWidth 16

/-! ### Fields of the registers -/

/-- The period `T`: `FREQ_HI[3:0]` above `FREQ_LO` (10_state.md rule R13). -/
def Channel.period (c : Channel) : Nat := (c.freqHi.extractLsb' 0 4 ++ c.freqLo).toNat

/-- `CTRL[7]` = `ON` (10_state.md rule R14). -/
def Channel.on (c : Channel) : Bool := c.ctrl.getLsbD 7

/-- `CTRL[6]` = `DDA` (10_state.md rule R14). -/
def Channel.dda (c : Channel) : Bool := c.ctrl.getLsbD 6

/-- `CTRL[4:0]` = `VOL` (10_state.md rule R14). -/
def Channel.vol (c : Channel) : Nat := (c.ctrl.extractLsb' 0 5).toNat

/-- `NOISE[7]` = `NE` (10_state.md rule R16). -/
def Channel.noiseEnable (c : Channel) : Bool := c.noise.getLsbD 7

/-- `NOISE[4:0]` = `NRATE` (10_state.md rule R16). -/
def Channel.noiseRate (c : Channel) : Nat := (c.noise.extractLsb' 0 5).toNat

/-- The left nibble of a byte with two nibbles: bits 7:4 (10_state.md rules R11, R15). -/
def leftNibble (b : Byte) : Nat := (b.extractLsb' 4 4).toNat

/-- The right nibble: bits 3:0 (10_state.md rules R11, R15). -/
def rightNibble (b : Byte) : Nat := (b.extractLsb' 0 4).toNat

end Sys2Proof.Machine
end

