-- ==== Sys2Proof/Machine/Lifecycle.lean ====
section
/-! DEFINITION. The lifecycle and configuration commands (46_lifecycle_config.md). -/

namespace Sys2Proof.Machine

/-- `INIT` (rule R200): every element of the Chip State at its reset value, `LC = RUN`, `FAULT = 0`. -/
def execInit (s : State) : Result :=
  .next (answer 0 { s with lc := .run, fault := 0, chip := resetChip s.cfg })

/-- `SHUTDOWN` (rule R201): `LC = OFF`; every other element of the Chip State but `FAULT` is unspecified, a free value
(log 2). -/
def execShutdown (s : State) : Result :=
  whileRunning s <|
    .next (answer 0 { s with
      lc := .off, chip := Config.unspecifiedChip s.freeCount, freeCount := s.freeCount + 1 })

/-- `CFGRATE rate` (rule R202). -/
def execCfgrate (imm : BitVec 24) (s : State) : Result :=
  whileRunning s <| .next (answer 0 { s with chip := { s.chip with rate := imm } })

/-- `CFGSTEREO flag` (rule R203). -/
def execCfgstereo (imm : BitVec 24) (s : State) : Result :=
  withOperand (flagOperand imm) s fun flag =>
    whileRunning s <| .next (answer 0 { s with chip := { s.chip with stereo := flag } })

/-- `RDSTAT` (rule R204), legal in `OFF` too. -/
def execRdstat (s : State) : Result :=
  .next (answer (statusData s.fault s.lc) s)

end Sys2Proof.Machine
end

