-- ==== Sys2Proof/Machine/RegisterBank.lean ====
section
/-! DEFINITION. The register bank commands (40_register_bank.md). -/

namespace Sys2Proof.Machine

/-- `WRGVOL data` (rule R81). -/
def execWrgvol (data : Byte) (s : State) : Result :=
  whileRunning s <| .next (answer 0 { s with chip := { s.chip with gvol := data } })

/-- `WRREG ch, idx, data` (rule R82). -/
def execWrreg (ch : BitVec 3) (idx data : Byte) (s : State) : Result :=
  withOperand (channelOperand ch) s fun c =>
    withOperand (writeRegOperand idx) s fun r =>
      whileRunning s <| .next (answer 0 (updateChannel s c fun x => x.writeReg r data))

/-- `WRWAVE ch, idx, data` (rule R83): the cell keeps the low 5 bits. -/
def execWrwave (ch : BitVec 3) (idx data : Byte) (s : State) : Result :=
  withOperand (channelOperand ch) s fun c =>
    withOperand (waveOperand idx) s fun k =>
      whileRunning s <|
        .next (answer 0 (updateChannel s c fun x => { x with wave := memWrite x.wave k (cellData data) }))

/-- `PUSHDA ch, data` (rule R84): a full queue faults, else one cell is appended. -/
def execPushda (ch : BitVec 3) (data : Byte) (s : State) : Result :=
  withOperand (channelOperand ch) s fun c =>
    whileRunning s <|
      if (s.chip.chan c).dacnt = 1024 then raise .queueOverflow s
      else .next (answer 0 (updateChannel s c (queuePush (cellData data))))

/-- `RDGVOL` (rule R85). -/
def execRdgvol (s : State) : Result :=
  whileRunning s <| .next (answer (s.chip.gvol.setWidth 16) s)

/-- `RDREG ch, idx` (rule R86). -/
def execRdreg (ch : BitVec 3) (idx : Byte) (s : State) : Result :=
  withOperand (channelOperand ch) s fun c =>
    withOperand (readRegOperand idx) s fun e =>
      whileRunning s <| .next (answer ((s.chip.chan c).readEntry e) s)

/-- `RDWAVE ch, idx` (rule R87). -/
def execRdwave (ch : BitVec 3) (idx : Byte) (s : State) : Result :=
  withOperand (channelOperand ch) s fun c =>
    withOperand (waveOperand idx) s fun k =>
      whileRunning s <| .next (answer ((memRead (s.chip.chan c).wave k).setWidth 16) s)

end Sys2Proof.Machine
end

