-- ==== Sys2Proof/Machine/Phase.lean ====
section
/-! DEFINITION. The phase accumulator and the sample-rate conversion (41_phase_accumulator.md): `RATIO16`, `INC_W`,
`INC_DA`, `ADV_W`, `ADV_DA`. -/

namespace Sys2Proof.Machine

/-- `RATIO16 = low_32(floor(CLOCK / RATE) << 16)` (rule R100). -/
def ratio16 (cfg : Config) (rate : Nat) : Nat := (cfg.clock / rate) <<< 16 % 2 ^ 32

/-- `INC_W(T) = floor(RATIO16 / T)` (rule R100); no rule reads it for `T = 0` (log 17). -/
def incW (cfg : Config) (rate period : Nat) : Nat := ratio16 cfg rate / period

/-- `INC_DA = floor(RATIO16 / DA_DIVISOR)` (rule R100). -/
def incDa (cfg : Config) (rate : Nat) : Nat := ratio16 cfg rate / cfg.daDivisor

/-- The new wave phase: the sum of naturals masked to 21 bits (rule R101). -/
def wavePhaseAfter (inc : Nat) (phase : Word) : Word := BitVec.ofNat 32 ((phase.toNat + inc) &&& 0x1FFFFF)

/-- The new direct-audio phase: the sum of naturals masked to 26 bits (rule R102). -/
def directPhaseAfter (inc : Nat) (phase : Word) : Word := BitVec.ofNat 32 ((phase.toNat + inc) &&& 0x3FFFFFF)

/-- `ADV_DA` on a channel (rule R102). -/
def advanceDirect (inc : Nat) (c : Channel) : Channel := { c with daphase := directPhaseAfter inc c.daphase }

/-- The table index: bits 20:16 of the wave phase (10_state.md rule R22, rule R104; log 10). -/
def Channel.waveIndex (c : Channel) : BitVec 5 := c.wphase.extractLsb' 16 5

/-- The queue slot: bits 25:16 of the direct-audio phase (10_state.md rule R23, rule R104; log 10). -/
def Channel.queueSlot (c : Channel) : BitVec 10 := c.daphase.extractLsb' 16 10

end Sys2Proof.Machine
end

