-- ==== Sys2Proof/Machine/Balance.lean ====
section
/-! DEFINITION. The values fixed at the start of a tick (45_balance_mixer.md rule R171), balance and per-channel scaling
(rules R176, R177). -/

namespace Sys2Proof.Machine

/-- The outcome of generator selection (45_balance_mixer.md rule R172). -/
inductive Generator where
  | off
  | silent
  | directAudio
  | noise
  | tone
  deriving DecidableEq, Repr

/-- The chip-level values of a tick of `n` samples (rule R171). -/
structure TickValues where
  cfg    : Config
  n      : Nat
  stereo : Bool
  rate   : Nat
  gl     : Nat
  gr     : Nat
  gm     : Nat
  deriving DecidableEq, Repr

/-- A channel's values for a tick (rule R171). -/
structure ChannelValues where
  gen    : Generator
  period : Nat
  lbal   : Nat
  rbal   : Nat
  mbal   : Nat
  incW   : Nat
  incDa  : Nat
  tv     : Nat
  ninc   : Nat
  deriving DecidableEq, Repr

/-- `SLOTS`: 1 in mono, 2 in stereo (10_state.md rule R11). -/
def slotsOf (stereo : Bool) : Nat := if stereo then 2 else 1

/-- `N × SLOTS`, the cells a tick fills. -/
def TickValues.cells (t : TickValues) : Nat := t.n * slotsOf t.stereo

/-- `count` samples of silence in the scratch buffer. -/
def silence (t : TickValues) (count : Nat) : List Byte := List.replicate (count * slotsOf t.stereo) 0

/-- `idiv(a, b)`: the quotient rounded as `DIV_ROUND` says (00_scope.md section 5). -/
def idiv (r : DivRound) (a : Int) (b : Nat) : Int :=
  match r with
  | .trunc => a.tdiv b
  | .floor => a.fdiv b

/-- `low_8(x)`. -/
def low8 (x : Int) : Byte := BitVec.ofInt 8 x

/-- One side's balance: `floor(nibble × BAL_RATIO × VOL)`, one floor at the end (rule R176). -/
def sideBalance (cfg : Config) (nibble vol : Nat) : Nat := nibble * vol * cfg.balNum / cfg.balDen

/-- `CENTER(raw)` (42_wave_generator.md rule R117). -/
def center (raw : Amp) : Int :=
  if raw.toNat ≤ 15 then (raw.toNat : Int) - 16 else (raw.toNat : Int) - 15

/-- A centred sample scaled by a balance, as the scratch cell stores it (rule R177). -/
def scaledCell (r : DivRound) (s : Int) (balance : Nat) : Byte := low8 (idiv r (s * balance) 64)

/-- `EMIT(ch, pos, s)`: the scratch cells of one sample, the left slot first (rule R177). -/
def emit (t : TickValues) (v : ChannelValues) (s : Int) : List Byte :=
  if t.stereo then [scaledCell t.cfg.divRound s v.lbal, scaledCell t.cfg.divRound s v.rbal]
  else [scaledCell t.cfg.divRound s v.mbal]

/-- A generator's loop over `n` samples: `f` makes one sample's cells and moves the channel on. -/
def sampleLoop (f : Channel → Channel × List Byte) : Nat → Channel → Channel × List Byte
  | 0, c => (c, [])
  | n + 1, c =>
    match f c with
    | (c1, cells) =>
      match sampleLoop f n c1 with
      | (c2, rest) => (c2, cells ++ rest)

end Sys2Proof.Machine
end

