-- ==== Sys2Proof/Machine/DirectAudio.lean ====
section
/-! DEFINITION. The direct-audio player (43_direct_audio.md rules R130 to R137). -/

namespace Sys2Proof.Machine

/-- Index transition: where the slot differs from the working copy `idx`, the copy is reloaded and the count falls by
one (rule R134). -/
def queueTransition (idx : BitVec 10) (c : Channel) : BitVec 10 × Channel :=
  if c.queueSlot = idx then (idx, c) else (c.queueSlot, { c with dacnt := c.dacnt - 1 })

/-- The player's loop over the samples that remain: it emits and advances while the count is above 0, then pads with
silence (rules R132 to R136). -/
def playLoop (t : TickValues) (v : ChannelValues) : Nat → BitVec 10 → Channel → Channel × List Byte
  | 0, _, c => (c, [])
  | n + 1, idx, c =>
    if c.dacnt = 0 then (c, silence t (n + 1))
    else
      match queueTransition idx (advanceDirect v.incDa c) with
      | (idx', c1) =>
        match playLoop t v n idx' c1 with
        | (c2, rest) => (c2, emit t v (center (memRead c.daq idx.toNat)) ++ rest)

/-- The player over the whole tick, skipped when `T = 0` (rules R130, R136). -/
def directGenerator (t : TickValues) (v : ChannelValues) (c : Channel) : Channel × List Byte :=
  if v.period = 0 then (c, silence t t.n) else playLoop t v t.n c.queueSlot c

end Sys2Proof.Machine
end

