-- ==== Sys2Proof/Machine/Noise.lean ====
section
/-! DEFINITION. The noise generator (44_noise_generator.md rules R150 to R157). -/

namespace Sys2Proof.Machine

/-- The value of a noise level (00_scope.md rule R3, `NOISE_LEVEL`). -/
def levelValue : NoiseLevel → Int
  | .plus => 7020
  | .minus => -7020

/-- The larger of the two derivations of a volume byte: twice its larger nibble (rule R151). -/
def volumeTerm (b : Byte) : Nat := max (b.toNat >>> 3 &&& 0x1E) (b.toNat <<< 1 &&& 0x1E)

/-- `vol`, 0 to 91 (rule R151). -/
def noiseVolume (gvol : Byte) (c : Channel) : Nat := volumeTerm gvol + c.vol + volumeTerm c.bal

/-- `NVOL`: the table entry at `max(0, vol - 60)`, an index of at most 31 (rule R151). -/
def tableVolume (cfg : Config) (gvol : Byte) (c : Channel) : Nat :=
  cfg.volTable.get (Fin.ofNat 32 (noiseVolume gvol c - 60))

/-- `NINC` (rule R152). -/
def noiseIncrement (c : Channel) : Nat := 3000 + c.noiseRate * 512

/-- `LFSR_STEP` (rule R154). -/
def lfsrStep (tap : Word) (c : Channel) : Channel :=
  if c.lfsr.getLsbD 19 then { c with lfsr := ((c.lfsr ^^^ tap) <<< 1) ||| 1, nlevel := .minus }
  else { c with lfsr := c.lfsr <<< 1, nlevel := .plus }

/-- The tick divider: at most one step of the shift register per sample (rule R153). -/
def noiseDivider (t : TickValues) (ninc : Nat) (c : Channel) : Channel :=
  let k := (c.noiseK.toNat + ninc) % 2 ^ 32
  if 1 ≤ k / t.rate then lfsrStep t.cfg.noiseTap { c with noiseK := BitVec.ofNat 32 (k - t.rate * (k / t.rate)) }
  else { c with noiseK := BitVec.ofNat 32 k }

/-- The scratch cell of a noise sample (rule R155). -/
def noiseCell (r : DivRound) (level : NoiseLevel) (tv : Nat) : Byte := low8 (idiv r (levelValue level * tv) 4096)

/-- One sample of the noise generator: the divider, then the same cell in every slot (rules R153 to R156). -/
def noiseSample (t : TickValues) (v : ChannelValues) (c : Channel) : Channel × List Byte :=
  let c1 := noiseDivider t v.ninc c
  (c1, List.replicate (slotsOf t.stereo) (noiseCell t.cfg.divRound c1.nlevel v.tv))

/-- The noise generator over the whole tick (rule R156). -/
def noiseGenerator (t : TickValues) (v : ChannelValues) (c : Channel) : Channel × List Byte :=
  sampleLoop (noiseSample t v) t.n c

end Sys2Proof.Machine
end

