-- ==== Sys2Proof/Machine/Wave.lean ====
section
/-! DEFINITION. The tone generator (42_wave_generator.md rules R115 to R119). -/

namespace Sys2Proof.Machine

/-- Advance of the wave phase and write-back of the index into `WIDX` (rule R118). -/
def advanceWave (inc : Nat) (c : Channel) : Channel :=
  { c with
    wphase := wavePhaseAfter inc c.wphase
    widx := (wavePhaseAfter inc c.wphase).extractLsb' 16 8 }

/-- One sample of the tone generator: lookup at the phase before the advance, centring, emission, advance (rule R119). -/
def toneSample (t : TickValues) (v : ChannelValues) (c : Channel) : Channel × List Byte :=
  (advanceWave v.incW c, emit t v (center (memRead c.wave c.waveIndex.toNat)))

/-- The tone generator over the whole tick (rule R119). -/
def toneGenerator (t : TickValues) (v : ChannelValues) (c : Channel) : Channel × List Byte :=
  sampleLoop (toneSample t v) t.n c

end Sys2Proof.Machine
end

