-- ==== Sys2Proof/Machine/Tick.lean ====
section
/-! DEFINITION. The TICK command, generator selection and the mixer (45_balance_mixer.md rules R170 to R181). -/

namespace Sys2Proof.Machine

/-- `sel(ch)` (rule R172): direct audio over noise over tone, noise on channels 4 and 5 only. -/
def selectGenerator (ch : Chan) (c : Channel) : Generator :=
  if c.on = false then .off
  else if c.dda = true ∨ c.dacnt ≠ 0 then .directAudio
  else if 4 ≤ ch.val ∧ c.noiseEnable = true then .noise
  else if 0 < c.period then .tone
  else .silent

/-- The chip-level values of a tick, from the state at its start (rules R171, R178). -/
def tickValues (cfg : Config) (n : Nat) (chip : Chip) : TickValues where
  cfg := cfg
  n := n
  stereo := chip.stereo
  rate := chip.rate.toNat
  gl := leftNibble chip.gvol
  gr := rightNibble chip.gvol
  gm := (leftNibble chip.gvol + rightNibble chip.gvol) / 2

/-- A channel's values for a tick, from the state at its start (rules R171, R176). -/
def channelValues (t : TickValues) (gvol : Byte) (ch : Chan) (c : Channel) : ChannelValues :=
  let l := sideBalance t.cfg (leftNibble c.bal) c.vol
  let r := sideBalance t.cfg (rightNibble c.bal) c.vol
  { gen := selectGenerator ch c
    period := c.period
    lbal := l
    rbal := r
    mbal := (l + r) / 2
    incW := incW t.cfg t.rate c.period
    incDa := incDa t.cfg t.rate
    tv := tableVolume t.cfg gvol c
    ninc := noiseIncrement c }

/-- The selected generator on one channel: the channel after the tick and the `N × SLOTS` scratch cells (rules R172,
R173, R175). -/
def runGenerator (t : TickValues) (v : ChannelValues) (c : Channel) : Channel × List Byte :=
  match v.gen with
  | .off => (c, silence t t.n)
  | .silent => (c, silence t t.n)
  | .directAudio => directGenerator t v c
  | .noise => noiseGenerator t v c
  | .tone => toneGenerator t v c

/-- How the mixer reads a scratch cell (rule R178). -/
def readScratch (r : ScratchRead) (b : Byte) : Int :=
  match r with
  | .unsigned => b.toNat
  | .signed => b.toInt

/-- The global-volume multiplier of cell `i`: left at even and right at odd indices in stereo, the average in mono
(rule R178). -/
def slotGain (t : TickValues) (i : Nat) : Nat :=
  if t.stereo then (if i % 2 = 0 then t.gl else t.gr) else t.gm

/-- One destination cell after one scratch cell is accumulated into it (rule R178). -/
def mixCell (t : TickValues) (i : Nat) (cell : Byte) (d : Sample) : Sample :=
  BitVec.ofInt 16 (d.toInt + readScratch t.cfg.scratchRead cell * slotGain t i)

/-- `MIX`: scratch cells from index `i` on, accumulated into the destination cells from index `i` on; the destination
cells beyond are left alone (rule R178). -/
def mixCells (t : TickValues) : Nat → List Byte → List Sample → List Sample
  | i, b :: bs, d :: ds => mixCell t i b d :: mixCells t (i + 1) bs ds
  | _, _, ds => ds

/-- The generator's turn of channel `ch`: it fills the scratch buffer (rule R175). -/
def generate (t : TickValues) (v : ChannelValues) (ch : Chan) (chip : Chip) : Chip :=
  match runGenerator t v (chip.chan ch) with
  | (c, cells) => { chip.setChan ch c with scr := cells ++ chip.scr.drop cells.length }

/-- The mixer's turn: it adds the scratch buffer into the destination buffer (rule R178). -/
def mix (t : TickValues) (chip : Chip) : Chip :=
  { chip with dest := mixCells t 0 (chip.scr.take t.cells) chip.dest }

/-- One channel of a tick that started in the Chip State `start` (rule R170). -/
def tickChannel (t : TickValues) (start : Chip) (chip : Chip) (ch : Chan) : Chip :=
  mix t (generate t (channelValues t start.gvol ch (start.chan ch)) ch chip)

/-- Zero fill of the destination buffer; cells above are left alone (rule R174). -/
def zeroFill (t : TickValues) (chip : Chip) : Chip :=
  { chip with dest := List.replicate t.cells 0 ++ chip.dest.drop t.cells }

/-- What the buffers hold after a tick: no cell of the scratch buffer has a specified value (10_state.md rule R29;
log 8), and of the destination buffer only the `N × SLOTS` cells the tick wrote have one (20_memory.md rule R51,
93_implementation_defined.md U8; log 9). A tick of no samples changes no state (rule R170). -/
def forgetUnspecified (t : TickValues) (chip : Chip) : Chip :=
  if t.n = 0 then chip else { chip with scr := [], dest := chip.dest.take t.cells }

/-- The channels in the order a tick takes them (rule R170: "ascending"). -/
def channelOrder : List Chan := [0, 1, 2, 3, 4, 5]

/-- The six channels of a tick, in a given order, after the zero fill (rule R170). -/
def tickChannels (t : TickValues) (start : Chip) (order : List Chan) : Chip :=
  order.foldl (tickChannel t start) (zeroFill t start)

/-- The Chip State after a tick of `n` samples (rule R170). -/
def tickChip (cfg : Config) (n : Nat) (chip : Chip) : Chip :=
  let t := tickValues cfg n chip
  forgetUnspecified t (tickChannels t chip channelOrder)

/-- `TICK n` (rule R170). -/
def execTick (imm : BitVec 24) (s : State) : Result :=
  whileRunning s <|
    if s.chip.rate = 0 then raise .rateNotConfigured s
    else if s.cfg.bufCap < imm.toNat * slotsOf s.chip.stereo then raise .bufferTooSmall s
    else if s.cfg.lawful = false then .fault .parametersOutOfRange
    else
      let chip := tickChip s.cfg imm.toNat s.chip
      .next { answer 0 s with
        chip := chip, sampleOut := chip.dest.take (imm.toNat * slotsOf s.chip.stereo) }

end Sys2Proof.Machine
end

