-- ==== Sys2Proof/Machine/Dispatch.lean ====
section
/-! DEFINITION. One arm per command: the meaning of each row of spec/opcode_table.json. -/

namespace Sys2Proof.Machine

def exec (i : Instr) (s : State) : Host.Outcome State Fault Refusal :=
  match i with
  | .init => Sys2Proof.Machine.execInit s
  | .shutdown => Sys2Proof.Machine.execShutdown s
  | .cfgrate imm => Sys2Proof.Machine.execCfgrate imm s
  | .cfgstereo imm => Sys2Proof.Machine.execCfgstereo imm s
  | .wrgvol data => Sys2Proof.Machine.execWrgvol data s
  | .wrreg ch idx data => Sys2Proof.Machine.execWrreg ch idx data s
  | .wrwave ch idx data => Sys2Proof.Machine.execWrwave ch idx data s
  | .pushda ch data => Sys2Proof.Machine.execPushda ch data s
  | .tick imm => Sys2Proof.Machine.execTick imm s
  | .rdgvol => Sys2Proof.Machine.execRdgvol s
  | .rdreg ch idx => Sys2Proof.Machine.execRdreg ch idx s
  | .rdwave ch idx => Sys2Proof.Machine.execRdwave ch idx s
  | .rdstat => Sys2Proof.Machine.execRdstat s

end Sys2Proof.Machine
end

