-- ==== Sys2Proof/Machine/Fetch.lean ====
section
/-! DEFINITION. Taking a command word from the command port (30_encoding.md rule R60; log 5): the block has no program
counter and no instruction fetch (10_state.md rule R30). -/

namespace Sys2Proof.Machine

/-- A command word accepted on the port: an illegal word raises `IllegalCommand`, in `OFF` as in `RUN`; any other word
is executed (60_exceptions.md rules R221, R228). -/
def acceptWord (w : Word) (s : State) : Result :=
  match Sys2Proof.decode w with
  | none => raise .illegalCommand s
  | some i => exec i s

/-- The state after the oldest word has left the command port, and that word; `none` when no word waits. -/
def takeWord (s : State) : Option (Word × State) :=
  match s.cmdIn with
  | [] => none
  | w :: rest => some (w, { s with cmdIn := rest })

/-- The state with a word put at the front of the command port, so that the next step takes it. -/
def issueNext (w : Word) (s : State) : State := { s with cmdIn := w :: s.cmdIn }

end Sys2Proof.Machine
end

