-- ==== Sys2Proof/Machine/Step.lean ====
section
/-! DEFINITION. One step of the block: the next command word, or nothing to do. -/

namespace Sys2Proof.Machine

/-- One step: the oldest word on the command port is executed to completion (30_encoding.md rule R60, 20_memory.md
rules R45, R46); between commands the block holds its state (60_exceptions.md rule R234; log 5). -/
def step (s : State) : Host.Outcome State Fault Refusal :=
  match takeWord s with
  | none => .next s
  | some (w, s') => acceptWord w s'

/-- `s` with the word of `nbits` bits as the next word on the command port (log 18). -/
def State.withFetchWord (s : State) (nbits w : Nat) : State := issueNext (Sys2Proof.tableWord nbits w) s

end Sys2Proof.Machine
end

