-- ==== Sys2Proof/Machine/Pseudo.lean ====
section
/-! DEFINITION. The six pseudo-instructions (30_encoding.md rule R68): each expands to a sequence of commands and has no
encoding of its own. `none` where an operand is outside the range the rule gives it. -/

namespace Sys2Proof.Machine

/-- The expansion, if the operands are in range. -/
def expandIf (inRange : Bool) (expansion : List Instr) : Option (List Instr) :=
  if inRange then some expansion else none

/-- `WRFREQ ch, t`, t in 0..4095. -/
def pseudoWrfreq (ch : BitVec 3) (t : Nat) : Option (List Instr) :=
  expandIf (decide (t ≤ 4095))
    [.wrreg ch 0 (BitVec.ofNat 8 (t &&& 0xFF)), .wrreg ch 1 (BitVec.ofNat 8 (t >>> 8))]

/-- `WRCTRL ch, on, dda, vol`, on and dda in 0..1, vol in 0..31. -/
def pseudoWrctrl (ch : BitVec 3) (on dda vol : Nat) : Option (List Instr) :=
  expandIf (decide (on ≤ 1) && decide (dda ≤ 1) && decide (vol ≤ 31))
    [.wrreg ch 2 (BitVec.ofNat 8 (on <<< 7 ||| dda <<< 6 ||| vol))]

/-- `WRBAL ch, l, r`, l and r in 0..15. -/
def pseudoWrbal (ch : BitVec 3) (l r : Nat) : Option (List Instr) :=
  expandIf (decide (l ≤ 15) && decide (r ≤ 15)) [.wrreg ch 3 (BitVec.ofNat 8 (l <<< 4 ||| r))]

/-- `WRNOISE ch, ne, rate`, ne in 0..1, rate in 0..31. -/
def pseudoWrnoise (ch : BitVec 3) (ne rate : Nat) : Option (List Instr) :=
  expandIf (decide (ne ≤ 1) && decide (rate ≤ 31)) [.wrreg ch 4 (BitVec.ofNat 8 (ne <<< 7 ||| rate))]

/-- The WRWAVE commands that store the values from index `i` on. -/
def waveWrites (ch : BitVec 3) : Nat → List Byte → List Instr
  | _, [] => []
  | i, v :: vs => .wrwave ch (BitVec.ofNat 8 i) v :: waveWrites ch (i + 1) vs

/-- `LOADWAVE ch, v0, …, v31`: exactly 32 values. -/
def pseudoLoadwave (ch : BitVec 3) (values : List Byte) : Option (List Instr) :=
  expandIf (decide (values.length = 32)) (waveWrites ch 0 values)

/-- `CONFIG rate, flag`. -/
def pseudoConfig (rate flag : BitVec 24) : Option (List Instr) :=
  some [.cfgrate rate, .cfgstereo flag]

end Sys2Proof.Machine
end

