-- ==== Sys2Proof/Machine/Assembler.lean ====
section
/-! DEFINITION. The textual form of commands (30_encoding.md rule R67) and pseudo-instructions (rule R68), as a function
from text to commands. The lexical points rule R67 leaves open are in log 16. -/

namespace Sys2Proof.Machine

/-- The pieces of a text between separators. -/
def splitText (sep : Char) : List Char → List (List Char)
  | [] => [[]]
  | c :: cs =>
    if c = sep then [] :: splitText sep cs
    else
      match splitText sep cs with
      | [] => [[c]]
      | p :: ps => (c :: p) :: ps

/-- White space inside a line (log 16). -/
def isBlank (c : Char) : Bool := c = ' ' || c = '\t' || c = '\r'

/-- A text without the white space around it. -/
def trimText (t : List Char) : List Char := ((t.dropWhile isBlank).reverse.dropWhile isBlank).reverse

/-- A line without its comment: `;` starts a comment to the end of the line (rule R67). -/
def dropComment (t : List Char) : List Char := t.takeWhile fun c => c != ';'

/-- The value of a digit, letters of either case for 10 to 15 (log 16). -/
def digitValue (c : Char) : Option Nat :=
  if '0' ≤ c ∧ c ≤ '9' then some (c.toNat - '0'.toNat)
  else if 'a' ≤ c ∧ c ≤ 'f' then some (c.toNat - 'a'.toNat + 10)
  else if 'A' ≤ c ∧ c ≤ 'F' then some (c.toNat - 'A'.toNat + 10)
  else none

/-- The digits of a number in a base, after the value `acc` of those already read. -/
def digitsValue (base acc : Nat) : List Char → Option Nat
  | [] => some acc
  | c :: cs =>
    match digitValue c with
    | some d => if d < base then digitsValue base (acc * base + d) cs else none
    | none => none

/-- A number: decimal, or `0x` and hexadecimal digits (rule R67). -/
def parseNumber (t : List Char) : Option Nat :=
  match t with
  | [] => none
  | ['0', 'x'] => none
  | '0' :: 'x' :: ds => digitsValue 16 0 ds
  | ds => digitsValue 10 0 ds

/-- A number that fits a field of `w` bits. -/
def parseField (w : Nat) (t : List Char) : Option (BitVec w) :=
  match parseNumber t with
  | some n => if n < 2 ^ w then some (BitVec.ofNat w n) else none
  | none => none

/-- The register index names of rule R64. -/
def registerNames : List (List Char × Byte) :=
  [("FREQ_LO".toList, 0), ("FREQ_HI".toList, 1), ("CTRL".toList, 2), ("BAL".toList, 3), ("NOISE".toList, 4),
   ("WIDX".toList, 5), ("DACNT".toList, 6)]

/-- A register index: a name of rule R64 or a number. -/
def parseRegister (t : List Char) : Option Byte :=
  match registerNames.find? fun p => p.1 == t with
  | some p => some p.2
  | none => parseField 8 t

/-- Every one of the texts as a field of `w` bits. -/
def parseFields (w : Nat) : List (List Char) → Option (List (BitVec w))
  | [] => some []
  | t :: ts =>
    match parseField w t, parseFields w ts with
    | some v, some vs => some (v :: vs)
    | _, _ => none

/-- One command, if its operands are in range. -/
def oneCommand (i : Instr) : Option (List Instr) := if i.wellFormed then some [i] else none

/-- A command or pseudo-instruction from its mnemonic and the texts of its operands, in the order of rules R67, R68. -/
def assembleParts (name : List Char) (ops : List (List Char)) : Option (List Instr) :=
  if name = "INIT".toList then
    match ops with
    | [] => oneCommand .init
    | _ => none
  else if name = "SHUTDOWN".toList then
    match ops with
    | [] => oneCommand .shutdown
    | _ => none
  else if name = "CFGRATE".toList then
    match ops with
    | [r] => (parseField 24 r).bind fun imm => oneCommand (.cfgrate imm)
    | _ => none
  else if name = "CFGSTEREO".toList then
    match ops with
    | [f] => (parseField 24 f).bind fun imm => oneCommand (.cfgstereo imm)
    | _ => none
  else if name = "WRGVOL".toList then
    match ops with
    | [d] => (parseField 8 d).bind fun data => oneCommand (.wrgvol data)
    | _ => none
  else if name = "WRREG".toList then
    match ops with
    | [c, i, d] => (parseField 3 c).bind fun ch => (parseRegister i).bind fun idx => (parseField 8 d).bind fun data =>
        oneCommand (.wrreg ch idx data)
    | _ => none
  else if name = "WRWAVE".toList then
    match ops with
    | [c, i, d] => (parseField 3 c).bind fun ch => (parseField 8 i).bind fun idx => (parseField 8 d).bind fun data =>
        oneCommand (.wrwave ch idx data)
    | _ => none
  else if name = "PUSHDA".toList then
    match ops with
    | [c, d] => (parseField 3 c).bind fun ch => (parseField 8 d).bind fun data => oneCommand (.pushda ch data)
    | _ => none
  else if name = "TICK".toList then
    match ops with
    | [n] => (parseField 24 n).bind fun imm => oneCommand (.tick imm)
    | _ => none
  else if name = "RDGVOL".toList then
    match ops with
    | [] => oneCommand .rdgvol
    | _ => none
  else if name = "RDREG".toList then
    match ops with
    | [c, i] => (parseField 3 c).bind fun ch => (parseRegister i).bind fun idx => oneCommand (.rdreg ch idx)
    | _ => none
  else if name = "RDWAVE".toList then
    match ops with
    | [c, i] => (parseField 3 c).bind fun ch => (parseField 8 i).bind fun idx => oneCommand (.rdwave ch idx)
    | _ => none
  else if name = "RDSTAT".toList then
    match ops with
    | [] => oneCommand .rdstat
    | _ => none
  else if name = "WRFREQ".toList then
    match ops with
    | [c, t] => (parseField 3 c).bind fun ch => (parseNumber t).bind fun t => pseudoWrfreq ch t
    | _ => none
  else if name = "WRCTRL".toList then
    match ops with
    | [c, o, d, v] => (parseField 3 c).bind fun ch => (parseNumber o).bind fun on => (parseNumber d).bind fun dda =>
        (parseNumber v).bind fun vol => pseudoWrctrl ch on dda vol
    | _ => none
  else if name = "WRBAL".toList then
    match ops with
    | [c, l, r] => (parseField 3 c).bind fun ch => (parseNumber l).bind fun l => (parseNumber r).bind fun r =>
        pseudoWrbal ch l r
    | _ => none
  else if name = "WRNOISE".toList then
    match ops with
    | [c, e, r] => (parseField 3 c).bind fun ch => (parseNumber e).bind fun ne => (parseNumber r).bind fun rate =>
        pseudoWrnoise ch ne rate
    | _ => none
  else if name = "LOADWAVE".toList then
    match ops with
    | c :: vs => (parseField 3 c).bind fun ch => (parseFields 8 vs).bind fun values => pseudoLoadwave ch values
    | _ => none
  else if name = "CONFIG".toList then
    match ops with
    | [r, f] => (parseField 24 r).bind fun rate => (parseField 24 f).bind fun flag => pseudoConfig rate flag
    | _ => none
  else none

/-- The texts of the operands: none where nothing follows the mnemonic, else the pieces between commas. -/
def operandTexts (t : List Char) : List (List Char) :=
  if trimText t = [] then [] else (splitText ',' t).map trimText

/-- One line: nothing, or one command, or one pseudo-instruction whose expansion is well formed (rules R67, R68). -/
def assembleLine (line : List Char) : Option (List Instr) :=
  let t := trimText (dropComment line)
  if t = [] then some []
  else
    match assembleParts (t.takeWhile fun c => !isBlank c) (operandTexts (t.dropWhile fun c => !isBlank c)) with
    | some is => if is.all Instr.wellFormed then some is else none
    | none => none

/-- The commands of a list of lines, `none` if one line has no meaning. -/
def assembleLines : List (List Char) → Option (List Instr)
  | [] => some []
  | l :: ls =>
    match assembleLine l, assembleLines ls with
    | some is, some rest => some (is ++ rest)
    | _, _ => none

/-- The commands of a text, one command per line (rule R67). -/
def assemble (text : String) : Option (List Instr) := assembleLines (splitText '\n' text.toList)

end Sys2Proof.Machine
end

