-- ==== Sys2Proof/Safety.lean ====
section
/-! DEFINITION. What counts as a safe run: no recorded fault (60_exceptions.md rule R222), and the invariants of the
running block (10_state.md rules R18, R20 to R24, R28; 20_memory.md rule R49); and the terms the statements use. -/

namespace Sys2Proof.Machine

/-- No fault recorded since INIT: the premise rule R222 of 60_exceptions.md asks of a claim about correct audio. -/
abbrev State.faultFree (s : State) : Prop := s.fault = 0

/-- The ranges the spec gives a channel's accumulators, count and tables (10_state.md rules R18, R20 to R23). -/
abbrev Channel.inRange (c : Channel) : Prop :=
  c.wphase.toNat < 2 ^ 21 ∧ c.daphase.toNat < 2 ^ 26 ∧ c.dacnt.toNat ≤ 1024
    ∧ Memory.wf 32 c.wave = true ∧ Memory.wf 1024 c.daq = true

/-- The bound of the noise tick counter: after every noise sample it is below `RATE`, a 24-bit number (10_state.md rules
R11, R24, 44_noise_generator.md rule R153). -/
abbrev Channel.counterInRange (c : Channel) : Prop := c.noiseK.toNat < 2 ^ 24

/-- The ranges of the Chip State: every channel in range, the specified cells of the buffers inside `BUF_CAP`
(10_state.md rule R29). -/
abbrev Chip.inRange (bufCap : Nat) (chip : Chip) : Prop :=
  (∀ ch : Chan, (chip.chan ch).inRange ∧ (chip.chan ch).counterInRange) ∧ chip.scr.length ≤ bufCap ∧ chip.dest.length ≤ bufCap

/-- The invariant of the block: lawful parameters, a recorded fault that is one of the five (60_exceptions.md rule R220),
and, while it runs, a Chip State in range. In `OFF` the Chip State is unspecified (70_reset_and_hazards.md rule R250). -/
abbrev State.inv (s : State) : Prop :=
  s.cfg.lawful = true ∧ s.fault.toNat ≤ 5 ∧ (s.lc = .run → s.chip.inRange s.cfg.bufCap)

/-- The read and the write side of a channel's queue agree: the slot being read, plus the pending count, is the write
pointer, modulo the 1024 slots (20_memory.md rule R49). -/
abbrev Channel.queueAligned (c : Channel) : Prop := (c.queueSlot.toNat + c.dacnt.toNat) % 1024 = c.dawr.toNat

/-- Every queue of the running block is aligned. -/
abbrev State.queuesAligned (s : State) : Prop := s.lc = .run → ∀ ch : Chan, (s.chip.chan ch).queueAligned

/-- A safe step: it ends in a next state with no fault recorded. -/
abbrev State.stepSafe (s : State) : Prop := ∃ t, step s = .next t ∧ t.faultFree

/-! ### Terms of the statements -/

/-- The state a faulted command leaves (60_exceptions.md rule R222), written out: the first code is kept, the response
word has the code in bits 18:16 and 0 elsewhere, nothing is delivered, nothing else changes. -/
abbrev faulted (code : BitVec 3) (s : State) : State :=
  { s with
    fault := if s.fault = 0 then code else s.fault
    resp := BitVec.ofNat 32 (code.toNat * 2 ^ 16)
    sampleOut := [] }

/-- The six byte registers of a channel in the order of their indices (10_state.md rule R12). -/
abbrev Channel.bank (c : Channel) : List Byte := [c.freqLo, c.freqHi, c.ctrl, c.bal, c.noise, c.widx]

/-- When TICK executes (45_balance_mixer.md rule R170), for parameters rule R4 of 00_scope.md admits. -/
abbrev State.tickReady (s : State) (n : BitVec 24) : Prop :=
  s.lc = .run ∧ s.chip.rate ≠ 0 ∧ n.toNat * (if s.chip.stereo then 2 else 1) ≤ s.cfg.bufCap ∧ s.cfg.lawful = true

/-- The scratch cells channel `ch` produces in a tick of `n` samples from `s` (45_balance_mixer.md rule R175). -/
def State.channelCells (s : State) (n : Nat) (ch : Chan) : List Byte :=
  (runGenerator (tickValues s.cfg n s.chip)
    (channelValues (tickValues s.cfg n s.chip) s.chip.gvol ch (s.chip.chan ch)) (s.chip.chan ch)).2

/-- The balance of cell `i` of a channel's scratch cells: left at even and right at odd indices in stereo, the average in
mono (45_balance_mixer.md rules R176, R177). -/
def State.slotBalance (s : State) (ch : Chan) (i : Nat) : Nat :=
  let side (nibble : Nat) : Nat := nibble * ((s.chip.chan ch).ctrl.toNat % 32) * s.cfg.balNum / s.cfg.balDen
  let l := side ((s.chip.chan ch).bal.toNat / 16)
  let r := side ((s.chip.chan ch).bal.toNat % 16)
  if s.chip.stereo then (if i % 2 = 0 then l else r) else (l + r) / 2

/-- The slot the direct-audio player is at after `p` advances by `inc` from the phase `phase` (41_phase_accumulator.md
rules R102, R104). -/
def slotAfter (phase inc p : Nat) : Nat := (phase + p * inc) / 2 ^ 16 % 1024

/-- How many of the first `p` advances change the slot, each of which costs one of the count (43_direct_audio.md rule
R134). -/
def slotsCrossed (phase inc p : Nat) : Nat :=
  ((List.range p).filter fun q => decide (slotAfter phase inc (q + 1) ≠ slotAfter phase inc q)).length

/-- The commands of a list, one after the other, stopping at the first that does not answer a next state. -/
def execAll : List Instr → State → Result
  | [], s => .next s
  | i :: is, s =>
    match exec i s with
    | .next t => execAll is t
    | .fault r => .fault r
    | .refused r => .refused r

end Sys2Proof.Machine
end

