-- ==== Sys2Proof/Certificates/Slice0/Obligations.lean ====
section
/-! DEFINITION. The statements for the provers, from the numbered rules of spec/. -/

open Sys2Proof Sys2Proof.Machine

/-! ### Lifecycle and configuration commands (46_lifecycle_config.md) -/

/-- Rule R200 with the table of rule R32: INIT, in either lifecycle state, leaves every element the table gives a value
at that value, answers 0, delivers nothing, and leaves the parameters and the command port alone. -/
def Obligations.InitSetsEveryElementToItsResetValue : Prop :=
  ∀ s : State, ∃ t : State, exec .init s = .next t
    ∧ t.lc = .run ∧ t.fault = 0 ∧ t.resp = 0 ∧ t.sampleOut = []
    ∧ t.cfg = s.cfg ∧ t.cmdIn = s.cmdIn ∧ t.freeCount = s.freeCount
    ∧ t.chip.gvol = 0 ∧ t.chip.stereo = false ∧ t.chip.rate = 0
    ∧ ∀ ch : Chan, (t.chip.chan ch).bank = [0, 0, 0, 0, 0, 0] ∧ (t.chip.chan ch).dacnt = 0
      ∧ (∀ i, memRead (t.chip.chan ch).wave i = 0) ∧ (∀ i, memRead (t.chip.chan ch).daq i = 0)
      ∧ (t.chip.chan ch).dawr = 0 ∧ (t.chip.chan ch).wphase = 0 ∧ (t.chip.chan ch).daphase = 0
      ∧ (t.chip.chan ch).noiseK = 0 ∧ (t.chip.chan ch).lfsr = s.cfg.noiseSeed.get ch
      ∧ (t.chip.chan ch).nlevel = s.cfg.noiseLevelReset

/-- Rule R201: SHUTDOWN in RUN goes to OFF and keeps FAULT, and every other element of the Chip State becomes the free
value (of which nothing is known); in OFF it raises NotRunning. The free value's form is the model's (log 2). -/
def Obligations.ShutdownLeavesOnlyFault : Prop :=
  ∀ s : State,
    (s.lc = .run → exec .shutdown s = .next { s with
      lc := .off, chip := Config.unspecifiedChip s.freeCount, freeCount := s.freeCount + 1, resp := 0, sampleOut := [] })
    ∧ (s.lc = .off → exec .shutdown s = .next (faulted 2 s))

/-- Rule R202: CFGRATE sets RATE to IMM, 0 included, and changes nothing else. -/
def Obligations.CfgrateSetsOnlyRate : Prop :=
  ∀ (imm : BitVec 24) (s : State),
    (s.lc = .run → exec (.cfgrate imm) s = .next { s with chip := { s.chip with rate := imm }, resp := 0, sampleOut := [] })
    ∧ (s.lc = .off → exec (.cfgrate imm) s = .next (faulted 2 s))

/-- Rule R203: CFGSTEREO sets STEREO to IMM[0] for IMM at most 1, and is illegal above. -/
def Obligations.CfgstereoSetsOnlyStereo : Prop :=
  ∀ (imm : BitVec 24) (s : State),
    (imm.toNat ≤ 1 → s.lc = .run → exec (.cfgstereo imm) s =
      .next { s with chip := { s.chip with stereo := imm.getLsbD 0 }, resp := 0, sampleOut := [] })
    ∧ (imm.toNat ≤ 1 → s.lc = .off → exec (.cfgstereo imm) s = .next (faulted 2 s))
    ∧ (1 < imm.toNat → exec (.cfgstereo imm) s = .next (faulted 1 s))

/-- Rule R204: RDSTAT answers FAULT in bits 3:1 and LC in bit 0, in OFF as in RUN, with no side effect. -/
def Obligations.RdstatAnswersFaultAndLifecycle : Prop :=
  ∀ s : State, ∃ t : State, exec .rdstat s = .next t
    ∧ t = { s with resp := t.resp, sampleOut := [] }
    ∧ t.resp.toNat = 2 * s.fault.toNat + (if s.lc = .run then 1 else 0)

/-! ### Register bank commands (40_register_bank.md) -/

/-- Rule R81: WRGVOL sets GVOL, every byte legal, and changes nothing else. -/
def Obligations.WrgvolSetsOnlyGlobalVolume : Prop :=
  ∀ (data : Byte) (s : State),
    (s.lc = .run → exec (.wrgvol data) s = .next { s with chip := { s.chip with gvol := data }, resp := 0, sampleOut := [] })
    ∧ (s.lc = .off → exec (.wrgvol data) s = .next (faulted 2 s))

/-- Rule R82: WRREG stores the whole byte in the register of its index, in that channel only, and changes nothing else
(no accumulator, no count, no table); an operand out of range is illegal whatever the lifecycle. -/
def Obligations.WrregStoresWholeByte : Prop :=
  ∀ (ch : BitVec 3) (idx data : Byte) (s : State),
    (∀ c : Chan, ch.toNat = c.val → idx.toNat ≤ 5 → s.lc = .run → ∃ t : State,
      exec (.wrreg ch idx data) s = .next t
      ∧ t = { s with chip := { s.chip with chans := t.chip.chans }, resp := 0, sampleOut := [] }
      ∧ (∀ d, d ≠ c → t.chip.chan d = s.chip.chan d)
      ∧ (t.chip.chan c).bank = (s.chip.chan c).bank.set idx.toNat data
      ∧ t.chip.chan c = { s.chip.chan c with
          freqLo := (t.chip.chan c).freqLo, freqHi := (t.chip.chan c).freqHi, ctrl := (t.chip.chan c).ctrl
          bal := (t.chip.chan c).bal, noise := (t.chip.chan c).noise, widx := (t.chip.chan c).widx })
    ∧ (ch.toNat ≤ 5 → idx.toNat ≤ 5 → s.lc = .off → exec (.wrreg ch idx data) s = .next (faulted 2 s))
    ∧ (5 < ch.toNat ∨ 5 < idx.toNat → exec (.wrreg ch idx data) s = .next (faulted 1 s))

/-- Rule R83: WRWAVE stores DATA[4:0] in the cell of its index; every other cell and element is unchanged. -/
def Obligations.WrwaveStoresLowFiveBits : Prop :=
  ∀ (ch : BitVec 3) (idx data : Byte) (s : State),
    (∀ c : Chan, ch.toNat = c.val → idx.toNat ≤ 31 → s.lc = .run → (s.chip.chan c).inRange → ∃ t : State,
      exec (.wrwave ch idx data) s = .next t
      ∧ t = { s with chip := { s.chip with chans := t.chip.chans }, resp := 0, sampleOut := [] }
      ∧ (∀ d, d ≠ c → t.chip.chan d = s.chip.chan d)
      ∧ t.chip.chan c = { s.chip.chan c with wave := (t.chip.chan c).wave }
      ∧ ∀ i, memRead (t.chip.chan c).wave i =
          if i = idx.toNat then BitVec.ofNat 5 (data.toNat % 32) else memRead (s.chip.chan c).wave i)
    ∧ (ch.toNat ≤ 5 → idx.toNat ≤ 31 → s.lc = .off → exec (.wrwave ch idx data) s = .next (faulted 2 s))
    ∧ (5 < ch.toNat ∨ 31 < idx.toNat → exec (.wrwave ch idx data) s = .next (faulted 1 s))

/-- Rule R84: PUSHDA stores DATA[4:0] at the write pointer, moves the pointer modulo 1024 and the count by one, and
changes no other cell or element; a full queue faults. -/
def Obligations.PushdaAppendsOneCell : Prop :=
  ∀ (ch : BitVec 3) (data : Byte) (s : State),
    (∀ c : Chan, ch.toNat = c.val → s.lc = .run → (s.chip.chan c).inRange → (s.chip.chan c).dacnt ≠ 1024 → ∃ t : State,
      exec (.pushda ch data) s = .next t
      ∧ t = { s with chip := { s.chip with chans := t.chip.chans }, resp := 0, sampleOut := [] }
      ∧ (∀ d, d ≠ c → t.chip.chan d = s.chip.chan d)
      ∧ t.chip.chan c = { s.chip.chan c with
          daq := (t.chip.chan c).daq, dawr := (t.chip.chan c).dawr, dacnt := (t.chip.chan c).dacnt }
      ∧ (∀ i, memRead (t.chip.chan c).daq i =
          if i = (s.chip.chan c).dawr.toNat then BitVec.ofNat 5 (data.toNat % 32) else memRead (s.chip.chan c).daq i)
      ∧ (t.chip.chan c).dawr.toNat = ((s.chip.chan c).dawr.toNat + 1) % 1024
      ∧ (t.chip.chan c).dacnt.toNat = (s.chip.chan c).dacnt.toNat + 1)
    ∧ (∀ c : Chan, ch.toNat = c.val → s.lc = .run → (s.chip.chan c).dacnt = 1024 →
        exec (.pushda ch data) s = .next (faulted 5 s))
    ∧ (ch.toNat ≤ 5 → s.lc = .off → exec (.pushda ch data) s = .next (faulted 2 s))
    ∧ (5 < ch.toNat → exec (.pushda ch data) s = .next (faulted 1 s))

/-- Rule R85: RDGVOL answers GVOL zero-extended, with no side effect. -/
def Obligations.RdgvolAnswersGlobalVolume : Prop :=
  ∀ s : State,
    (s.lc = .run → exec .rdgvol s = .next { s with resp := BitVec.ofNat 32 s.chip.gvol.toNat, sampleOut := [] })
    ∧ (s.lc = .off → exec .rdgvol s = .next (faulted 2 s))

/-- Rule R86: RDREG answers the byte register of its index, or DACNT for index 6, zero-extended, with no side effect. -/
def Obligations.RdregAnswersBankEntry : Prop :=
  ∀ (ch : BitVec 3) (idx : Byte) (s : State),
    (∀ (c : Chan) (v : Nat), ch.toNat = c.val → s.lc = .run →
      ((s.chip.chan c).bank.map BitVec.toNat ++ [(s.chip.chan c).dacnt.toNat])[idx.toNat]? = some v →
      exec (.rdreg ch idx) s = .next { s with resp := BitVec.ofNat 32 v, sampleOut := [] })
    ∧ (ch.toNat ≤ 5 → idx.toNat ≤ 6 → s.lc = .off → exec (.rdreg ch idx) s = .next (faulted 2 s))
    ∧ (5 < ch.toNat ∨ 6 < idx.toNat → exec (.rdreg ch idx) s = .next (faulted 1 s))

/-- Rule R87: RDWAVE answers the table cell of its index, zero-extended, with no side effect. -/
def Obligations.RdwaveAnswersTableCell : Prop :=
  ∀ (ch : BitVec 3) (idx : Byte) (s : State),
    (∀ c : Chan, ch.toNat = c.val → idx.toNat ≤ 31 → s.lc = .run → exec (.rdwave ch idx) s =
      .next { s with resp := BitVec.ofNat 32 (memRead (s.chip.chan c).wave idx.toNat).toNat, sampleOut := [] })
    ∧ (ch.toNat ≤ 5 → idx.toNat ≤ 31 → s.lc = .off → exec (.rdwave ch idx) s = .next (faulted 2 s))
    ∧ (5 < ch.toNat ∨ 31 < idx.toNat → exec (.rdwave ch idx) s = .next (faulted 1 s))

/-- Rule R44: the four read commands leave every element of the Chip State as it was, executed or faulted (but the
FAULT code of a faulted one), so reading twice answers the same word. -/
def Obligations.ReadCommandsHaveNoSideEffect : Prop :=
  ∀ (i : Instr) (s t u : State),
    (i = .rdgvol ∨ i = .rdstat ∨ (∃ ch idx, i = .rdreg ch idx) ∨ (∃ ch idx, i = .rdwave ch idx)) →
    exec i s = .next t → exec i t = .next u →
    t = { s with fault := t.fault, resp := t.resp, sampleOut := [] }
      ∧ (t.resp.toNat < 2 ^ 16 → t.fault = s.fault ∧ u = t)

/-- The expansion of WRFREQ (rule R68) gives the channel the period it names (rule R13), whatever the registers held, and
changes no other element of any channel: no phase of either accumulator moves (rule R82). -/
def Obligations.WrfreqSetsThePeriod : Prop :=
  ∀ (ch : BitVec 3) (c : Chan) (t : Nat) (s : State), ch.toNat = c.val → t ≤ 4095 → s.lc = .run →
    ∃ (is : List Instr) (u : State), pseudoWrfreq ch t = some is ∧ execAll is s = .next u
      ∧ (u.chip.chan c).freqHi.toNat % 16 * 256 + (u.chip.chan c).freqLo.toNat = t
      ∧ (u.chip.chan c).period = t
      ∧ u.chip.chan c = { s.chip.chan c with freqLo := (u.chip.chan c).freqLo, freqHi := (u.chip.chan c).freqHi }
      ∧ (∀ d, d ≠ c → u.chip.chan d = s.chip.chan d)
      ∧ u = { s with chip := { s.chip with chans := u.chip.chans }, resp := 0, sampleOut := [] }

/-! ### TICK (45_balance_mixer.md and files 41 to 44) -/

/-- TICK executes when the block runs, a rate is configured and the tick fits the buffers: it answers 0, delivers
exactly N × SLOTS samples, those of DEST in index order, and touches nothing but the channels and the two buffers
(rules R170, R179). -/
def Obligations.TickCompletesAndDeliversItsSamples : Prop :=
  ∀ (n : BitVec 24) (s : State), s.tickReady n → ∃ t : State, exec (.tick n) s = .next t
    ∧ t = { s with chip := t.chip, resp := 0, sampleOut := t.sampleOut }
    ∧ t.chip = { s.chip with chans := t.chip.chans, scr := t.chip.scr, dest := t.chip.dest }
    ∧ t.sampleOut.length = n.toNat * (if s.chip.stereo then 2 else 1)
    ∧ t.sampleOut = t.chip.dest.take (n.toNat * (if s.chip.stereo then 2 else 1))

/-- TICK 0 is legal once a rate is configured, changes no state and delivers nothing (rule R170). -/
def Obligations.TickOfNoSamplesChangesNothing : Prop :=
  ∀ s : State, s.tickReady 0 → exec (.tick 0) s = .next { s with resp := 0, sampleOut := [] }

/-- A tick writes no element of the host's side (rule R31): registers 0 to 4, tables, queue cells and write pointers
stand, and no count rises. After a tick of at least one sample the destination cells with a specified value are those
delivered, none at or above N × SLOTS (rule R51, U8; as a list without the others: log 9). A tick of no samples leaves
them as they were (rule R170). -/
def Obligations.TickLeavesHostSideAlone : Prop :=
  ∀ (n : BitVec 24) (s t : State), s.tickReady n → exec (.tick n) s = .next t →
    (∀ ch : Chan, (t.chip.chan ch).bank.take 5 = (s.chip.chan ch).bank.take 5
      ∧ (t.chip.chan ch).wave = (s.chip.chan ch).wave ∧ (t.chip.chan ch).daq = (s.chip.chan ch).daq
      ∧ (t.chip.chan ch).dawr = (s.chip.chan ch).dawr
      ∧ (t.chip.chan ch).dacnt.toNat ≤ (s.chip.chan ch).dacnt.toNat)
    ∧ (0 < n.toNat → t.chip.dest = t.sampleOut) ∧ (n.toNat = 0 → t.chip.dest = s.chip.dest)

/-- Rule R172: the five outcomes of generator selection, direct audio over noise over tone over silence. -/
def Obligations.SelectionFollowsItsPriority : Prop :=
  ∀ (ch : Chan) (c : Channel),
    (c.ctrl.getLsbD 7 = false → selectGenerator ch c = .off)
    ∧ (c.ctrl.getLsbD 7 = true → (c.ctrl.getLsbD 6 = true ∨ 0 < c.dacnt.toNat) → selectGenerator ch c = .directAudio)
    ∧ (c.ctrl.getLsbD 7 = true → c.ctrl.getLsbD 6 = false → c.dacnt = 0 →
        (4 ≤ ch.val → c.noise.getLsbD 7 = true → selectGenerator ch c = .noise)
        ∧ (ch.val < 4 ∨ c.noise.getLsbD 7 = false →
            (0 < c.freqHi.toNat % 16 * 256 + c.freqLo.toNat → selectGenerator ch c = .tone)
            ∧ (c.freqHi.toNat % 16 * 256 + c.freqLo.toNat = 0 → selectGenerator ch c = .silent)))

/-- Rule R173: a channel that is disabled, or enabled in tone mode with T = 0, produces N × SLOTS zero cells and none of
its state changes. -/
def Obligations.OffAndSilentChannelsStandStill : Prop :=
  ∀ (n : BitVec 24) (s t : State) (ch : Chan), s.tickReady n → exec (.tick n) s = .next t →
    (selectGenerator ch (s.chip.chan ch) = .off ∨ selectGenerator ch (s.chip.chan ch) = .silent) →
    t.chip.chan ch = s.chip.chan ch
      ∧ s.channelCells n.toNat ch = List.replicate (n.toNat * (if s.chip.stereo then 2 else 1)) 0

/-- A tick in which a channel runs the tone generator advances its wave phase N times by INC_W modulo 2^21, leaves WIDX
at the new index, and changes nothing else of the channel (rules R100, R101, R118, R119, R105). -/
def Obligations.ToneTickAdvancesWavePhase : Prop :=
  ∀ (n : BitVec 24) (s t : State) (ch : Chan), s.tickReady n → (s.chip.chan ch).inRange → exec (.tick n) s = .next t →
    selectGenerator ch (s.chip.chan ch) = .tone →
    t.chip.chan ch = { s.chip.chan ch with wphase := (t.chip.chan ch).wphase, widx := (t.chip.chan ch).widx }
      ∧ (t.chip.chan ch).wphase.toNat =
          ((s.chip.chan ch).wphase.toNat + n.toNat *
            (s.cfg.clock / s.chip.rate.toNat * 2 ^ 16 % 2 ^ 32
              / ((s.chip.chan ch).freqHi.toNat % 16 * 256 + (s.chip.chan ch).freqLo.toNat))) % 2 ^ 21
      ∧ (t.chip.chan ch).widx.toNat =
          if n = 0 then (s.chip.chan ch).widx.toNat else (t.chip.chan ch).wphase.toNat / 2 ^ 16

/-- The cells a tone channel produces: cell i of a tick is the table cell at the index of the phase before that sample,
centred, scaled by the balance of the slot, divided by 64 (rules R116, R117, R119, R177). -/
def Obligations.ToneCellsFollowTheTable : Prop :=
  ∀ (n : Nat) (s : State) (ch : Chan), (s.chip.chan ch).inRange → selectGenerator ch (s.chip.chan ch) = .tone →
    ∀ i < n * (if s.chip.stereo then 2 else 1), (s.channelCells n ch)[i]? =
      some (BitVec.ofInt 8 (idiv s.cfg.divRound (center (memRead (s.chip.chan ch).wave
        (((s.chip.chan ch).wphase.toNat + i / (if s.chip.stereo then 2 else 1) *
          (s.cfg.clock / s.chip.rate.toNat * 2 ^ 16 % 2 ^ 32
            / ((s.chip.chan ch).freqHi.toNat % 16 * 256 + (s.chip.chan ch).freqLo.toNat))) / 2 ^ 16 % 32))
        * s.slotBalance ch i) 64))

/-- A channel selected for direct audio is silent for the whole tick, and no state of it changes, when T = 0 (rules R103,
R130) and when the count is 0 at the start of the tick (rules R135, R229). -/
def Obligations.DirectAudioIsSilentAtZeroPeriodOrEmptyQueue : Prop :=
  ∀ (n : BitVec 24) (s t : State) (ch : Chan), s.tickReady n → exec (.tick n) s = .next t →
    selectGenerator ch (s.chip.chan ch) = .directAudio →
    (s.chip.chan ch).freqHi.toNat % 16 * 256 + (s.chip.chan ch).freqLo.toNat = 0 ∨ (s.chip.chan ch).dacnt = 0 →
    t.chip.chan ch = s.chip.chan ch
      ∧ s.channelCells n.toNat ch = List.replicate (n.toNat * (if s.chip.stereo then 2 else 1)) 0

/-- Direct audio with T > 0: the player plays m samples, every one of them with a count above 0, and fewer than N only
where the count has come to 0; it advances its phase by INC_DA on each, and the count falls by one for each of those
advances that changes the slot. Nothing else of the channel changes. Where no advance can cross two slots the count falls
by the slots crossed (rules R133 to R136, R262). -/
def Obligations.DirectAudioConsumesTheSlotsItCrosses : Prop :=
  ∀ (n : BitVec 24) (s t : State) (ch : Chan) (inc : Nat),
    inc = s.cfg.clock / s.chip.rate.toNat * 2 ^ 16 % 2 ^ 32 / s.cfg.daDivisor →
    s.tickReady n → (s.chip.chan ch).inRange → exec (.tick n) s = .next t →
    selectGenerator ch (s.chip.chan ch) = .directAudio →
    0 < (s.chip.chan ch).freqHi.toNat % 16 * 256 + (s.chip.chan ch).freqLo.toNat →
    t.chip.chan ch = { s.chip.chan ch with daphase := (t.chip.chan ch).daphase, dacnt := (t.chip.chan ch).dacnt }
      ∧ ∃ m ≤ n.toNat, (m < n.toNat → (t.chip.chan ch).dacnt = 0)
        ∧ (∀ p < m, slotsCrossed (s.chip.chan ch).daphase.toNat inc p < (s.chip.chan ch).dacnt.toNat)
        ∧ (t.chip.chan ch).dacnt.toNat + slotsCrossed (s.chip.chan ch).daphase.toNat inc m
            = (s.chip.chan ch).dacnt.toNat
        ∧ (t.chip.chan ch).daphase.toNat = ((s.chip.chan ch).daphase.toNat + m * inc) % 2 ^ 26
        ∧ (inc ≤ 65536 →
            (∀ p < m, ((s.chip.chan ch).daphase.toNat + p * inc) / 2 ^ 16
              < (s.chip.chan ch).dacnt.toNat + (s.chip.chan ch).daphase.toNat / 2 ^ 16)
            ∧ (t.chip.chan ch).dacnt.toNat + ((s.chip.chan ch).daphase.toNat + m * inc) / 2 ^ 16
              = (s.chip.chan ch).dacnt.toNat + (s.chip.chan ch).daphase.toNat / 2 ^ 16)

/-- The cells a direct-audio channel produces: for the m samples it plays, the queue cell of the slot of the phase before
that sample, centred, scaled by the balance of the slot, divided by 64; then zeros. It plays while the count is above 0
and no longer: the count is above 0 before each of the m samples, and 0 after them if m is less than N (rules R131, R132,
R134, R135, R136, R177). -/
def Obligations.DirectAudioCellsPlayTheQueueThenSilence : Prop :=
  ∀ (n : BitVec 24) (s t : State) (ch : Chan) (inc : Nat),
    inc = s.cfg.clock / s.chip.rate.toNat * 2 ^ 16 % 2 ^ 32 / s.cfg.daDivisor →
    s.tickReady n → (s.chip.chan ch).inRange → exec (.tick n) s = .next t →
    selectGenerator ch (s.chip.chan ch) = .directAudio →
    0 < (s.chip.chan ch).freqHi.toNat % 16 * 256 + (s.chip.chan ch).freqLo.toNat →
    ∃ m ≤ n.toNat,
      (∀ p < m, slotsCrossed (s.chip.chan ch).daphase.toNat inc p < (s.chip.chan ch).dacnt.toNat)
      ∧ (m < n.toNat → slotsCrossed (s.chip.chan ch).daphase.toNat inc m = (s.chip.chan ch).dacnt.toNat
          ∧ (t.chip.chan ch).dacnt = 0)
      ∧ (t.chip.chan ch).daphase.toNat = ((s.chip.chan ch).daphase.toNat + m * inc) % 2 ^ 26
      ∧ ∀ i < n.toNat * (if s.chip.stereo then 2 else 1), (s.channelCells n.toNat ch)[i]? =
          some (if i / (if s.chip.stereo then 2 else 1) < m then
            BitVec.ofInt 8 (idiv s.cfg.divRound (center (memRead (s.chip.chan ch).daq
              (slotAfter (s.chip.chan ch).daphase.toNat inc (i / (if s.chip.stereo then 2 else 1))))
              * s.slotBalance ch i) 64)
          else 0)

/-- Noise: after a tick of N samples, at least one, the channel is the one it was after N passes of the divider, so the
shift register and the level are those of the last sample. The tick counter is the sum of the increments modulo RATE, and
nothing of the channel but the counter, the shift register and the level has changed (rules R152, R153, R156). The
premise on the counter follows from the invariant State.inv, which every step keeps. -/
def Obligations.NoiseTickCountsModuloTheRate : Prop :=
  ∀ (n : BitVec 24) (s t : State) (ch : Chan), s.tickReady n → 0 < n.toNat → (s.chip.chan ch).noiseK.toNat < 2 ^ 31 →
    exec (.tick n) s = .next t → selectGenerator ch (s.chip.chan ch) = .noise →
    t.chip.chan ch = { s.chip.chan ch with
        noiseK := (t.chip.chan ch).noiseK, lfsr := (t.chip.chan ch).lfsr, nlevel := (t.chip.chan ch).nlevel }
      ∧ t.chip.chan ch =
          (noiseDivider (tickValues s.cfg n.toNat s.chip) (3000 + (s.chip.chan ch).noise.toNat % 32 * 512))^[n.toNat]
            (s.chip.chan ch)
      ∧ (t.chip.chan ch).noiseK.toNat =
          ((s.chip.chan ch).noiseK.toNat + n.toNat * (3000 + (s.chip.chan ch).noise.toNat % 32 * 512))
            % s.chip.rate.toNat

/-- Rule R153: the tick divider. The counter gains the increment modulo 2^32; where it reaches the rate the shift register
steps exactly once and the counter keeps the remainder. -/
def Obligations.NoiseDividerStepsAtMostOnce : Prop :=
  ∀ (t : TickValues) (ninc k : Nat) (c : Channel), 1 ≤ t.rate → k = (c.noiseK.toNat + ninc) % 2 ^ 32 →
    (k < t.rate → noiseDivider t ninc c = { c with noiseK := BitVec.ofNat 32 k })
    ∧ (t.rate ≤ k → noiseDivider t ninc c =
        { c with
          noiseK := BitVec.ofNat 32 (k % t.rate)
          lfsr := (lfsrStep t.cfg.noiseTap c).lfsr
          nlevel := (lfsrStep t.cfg.noiseTap c).nlevel })

/-- The cells a noise channel produces: every slot of sample p holds the level after p + 1 passes of the divider, times
the table volume, divided by 4096 (rules R155, R156). -/
def Obligations.NoiseCellsFollowTheLevel : Prop :=
  ∀ (n : Nat) (s : State) (ch : Chan), selectGenerator ch (s.chip.chan ch) = .noise →
    ∀ i < n * (if s.chip.stereo then 2 else 1), (s.channelCells n ch)[i]? =
      some (BitVec.ofInt 8 (idiv s.cfg.divRound
        (levelValue ((noiseDivider (tickValues s.cfg n s.chip) (3000 + (s.chip.chan ch).noise.toNat % 32 * 512))^[
            i / (if s.chip.stereo then 2 else 1) + 1] (s.chip.chan ch)).nlevel
          * tableVolume s.cfg s.chip.gvol (s.chip.chan ch)) 4096))

/-- A noise tick emits only two values, the two levels scaled by the table volume, never a third (rule R155). -/
def Obligations.NoiseEmitsOnlyTwoValues : Prop :=
  ∀ (n : Nat) (s : State) (ch : Chan), selectGenerator ch (s.chip.chan ch) = .noise →
    ∀ b ∈ s.channelCells n ch,
      b = BitVec.ofInt 8 (idiv s.cfg.divRound (7020 * tableVolume s.cfg s.chip.gvol (s.chip.chan ch)) 4096)
      ∨ b = BitVec.ofInt 8 (idiv s.cfg.divRound (-7020 * tableVolume s.cfg s.chip.gvol (s.chip.chan ch)) 4096)

/-- Rule R157: two runs with the same shift register, counter, level, increment, table volume, rate and parameters emit
the same cells, whatever else the two channels hold. -/
def Obligations.NoiseOutputDependsOnNoiseStateAlone : Prop :=
  ∀ (t : TickValues) (v w : ChannelValues) (c d : Channel), v.gen = .noise → w.gen = .noise →
    v.tv = w.tv → v.ninc = w.ninc → c.lfsr = d.lfsr → c.noiseK = d.noiseK → c.nlevel = d.nlevel →
    (runGenerator t v c).2 = (runGenerator t w d).2
      ∧ (runGenerator t v c).1.lfsr = (runGenerator t w d).1.lfsr
      ∧ (runGenerator t v c).1.noiseK = (runGenerator t w d).1.noiseK
      ∧ (runGenerator t v c).1.nlevel = (runGenerator t w d).1.nlevel

/-- Rule R154: one step of the shift register tests bit 19 before the shift; the levels are -7020 and +7020. -/
def Obligations.LfsrStepTestsBitNineteen : Prop :=
  levelValue .minus = -7020 ∧ levelValue .plus = 7020 ∧ ∀ (tap : Word) (c : Channel),
    (c.lfsr.toNat / 2 ^ 19 % 2 = 1 → lfsrStep tap c =
      { c with lfsr := BitVec.ofNat 32 ((c.lfsr ^^^ tap).toNat * 2 ||| 1), nlevel := .minus })
    ∧ (c.lfsr.toNat / 2 ^ 19 % 2 = 0 → lfsrStep tap c =
      { c with lfsr := BitVec.ofNat 32 (c.lfsr.toNat * 2), nlevel := .plus })

/-- Only bits 19:0 of the shift register can influence an output: registers that agree there give the same levels after
any number of steps (rule R25). -/
def Obligations.LfsrHighBitsNeverMatter : Prop :=
  ∀ (tap : Word) (c d : Channel) (k : Nat), c.lfsr.toNat % 2 ^ 20 = d.lfsr.toNat % 2 ^ 20 →
    ((lfsrStep tap)^[k + 1] c).nlevel = ((lfsrStep tap)^[k + 1] d).nlevel
      ∧ ((lfsrStep tap)^[k] c).lfsr.toNat % 2 ^ 20 = ((lfsrStep tap)^[k] d).lfsr.toNat % 2 ^ 20

/-- Rule R117: the centring rule; its result is never 0 and lies in -16..16. -/
def Obligations.CenterIsSymmetricWithoutZero : Prop :=
  ∀ raw : Amp, (raw.toNat ≤ 15 → center raw = raw.toNat - 16) ∧ (16 ≤ raw.toNat → center raw = raw.toNat - 15)
    ∧ center raw ≠ 0 ∧ -16 ≤ center raw ∧ center raw ≤ 16

/-- Rule R151: `vol` is twice the larger global nibble, plus the voice volume, plus twice the larger balance nibble; it
is at most 91, and the table is read at `max(0, vol - 60)`. -/
def Obligations.NoiseVolumeAddsThreeTerms : Prop :=
  ∀ (cfg : Config) (gvol : Byte) (c : Channel),
    noiseVolume gvol c = 2 * max (gvol.toNat / 16) (gvol.toNat % 16) + c.ctrl.toNat % 32
        + 2 * max (c.bal.toNat / 16) (c.bal.toNat % 16)
    ∧ noiseVolume gvol c ≤ 91
    ∧ some (tableVolume cfg gvol c) = cfg.volTable.toList[noiseVolume gvol c - 60]?

/-- Rule R176: the balances of a channel, the exact product floored once, and their floored average. -/
def Obligations.BalancesAreFlooredOnce : Prop :=
  ∀ (cfg : Config) (n : Nat) (chip : Chip) (ch : Chan),
    let c := chip.chan ch
    let v := channelValues (tickValues cfg n chip) chip.gvol ch c
    v.lbal = c.bal.toNat / 16 * (c.ctrl.toNat % 32) * cfg.balNum / cfg.balDen
    ∧ v.rbal = c.bal.toNat % 16 * (c.ctrl.toNat % 32) * cfg.balNum / cfg.balDen
    ∧ v.mbal = (v.lbal + v.rbal) / 2
    ∧ (cfg.balNum = 11 → cfg.balDen = 10 → v.lbal ≤ 511 ∧ v.rbal ≤ 511 ∧ v.mbal ≤ 511)

/-- The rounded quotient of 00_scope.md section 5 under both values of DIV_ROUND: `floor` gives the greatest integer not
above the quotient, `trunc` the quotient of the magnitudes with the sign of the dividend. With balances of at most 511 the
scaled sample fits its 8-bit cell: the cell read as a signed byte is the rounded quotient itself, within -127..127 when it
truncates and -128..127 when it floors (rules R4, R177). -/
def Obligations.ScaledSampleFitsItsCell : Prop :=
  (∀ (a : Int) (b : Nat), 1 ≤ b →
    (b * idiv .floor a b ≤ a ∧ a < b * (idiv .floor a b + 1))
      ∧ idiv .trunc a b = a.sign * ((a.natAbs / b : Nat) : Int))
  ∧ ∀ (r : DivRound) (raw : Amp) (balance : Nat), balance ≤ 511 →
    (scaledCell r (center raw) balance).toInt = idiv r (center raw * balance) 64
      ∧ (r = .trunc → -127 ≤ idiv r (center raw * balance) 64 ∧ idiv r (center raw * balance) 64 ≤ 127)
      ∧ (r = .floor → -128 ≤ idiv r (center raw * balance) 64 ∧ idiv r (center raw * balance) 64 ≤ 127)

/-- Rules R101, R102: both advances are additions modulo the wrap width, with no bit above it. -/
def Obligations.PhaseAdvancesWrapAtTheirWidth : Prop :=
  ∀ (inc : Nat) (phase : Word),
    (wavePhaseAfter inc phase).toNat = (phase.toNat + inc) % 2 ^ 21
      ∧ (directPhaseAfter inc phase).toNat = (phase.toNat + inc) % 2 ^ 26

/-- Every delivered sample is the sum, over the six channels, of the channel's scratch cell times the global nibble of
the slot: no channel interferes with another, and no sum wraps. A scratch cell counts 0 to 255 under the unsigned reading and
-128 to 127, in two's complement, under the signed one (rules R178, R179, R180, R181). -/
def Obligations.SampleIsTheSumOfTheChannels : Prop :=
  ∀ (n : BitVec 24) (s t : State), s.tickReady n → exec (.tick n) s = .next t →
    ∀ (i : Nat) (x : Sample), t.sampleOut[i]? = some x →
      x.toInt = (channelOrder.map fun ch =>
        (if s.cfg.scratchRead = .signed ∧ 128 ≤ ((s.channelCells n.toNat ch).getD i 0).toNat
            then (((s.channelCells n.toNat ch).getD i 0).toNat : Int) - 256
            else (((s.channelCells n.toNat ch).getD i 0).toNat : Int))
        * (if s.chip.stereo then (if i % 2 = 0 then (s.chip.gvol.toNat / 16 : Int) else (s.chip.gvol.toNat % 16 : Int))
            else ((s.chip.gvol.toNat / 16 + s.chip.gvol.toNat % 16) / 2 : Int))).sum

/-- Rule R180: under the unsigned reading every delivered sample lies in 0..22950, under the signed one in
-11520..11430, whatever the registers hold. -/
def Obligations.SamplesStayInRange : Prop :=
  ∀ (n : BitVec 24) (s t : State), s.tickReady n → exec (.tick n) s = .next t → ∀ x ∈ t.sampleOut,
    (s.cfg.scratchRead = .unsigned → 0 ≤ x.toInt ∧ x.toInt ≤ 22950)
      ∧ (s.cfg.scratchRead = .signed → -11520 ≤ x.toInt ∧ x.toInt ≤ 11430)

/-- Rule R181: the order in which a tick takes its channels does not matter. -/
def Obligations.ChannelOrderDoesNotMatter : Prop :=
  ∀ (cfg : Config) (n : Nat) (chip : Chip) (order : List Chan), order.Perm channelOrder →
    (tickChannels (tickValues cfg n chip) chip order).dest
        = (tickChannels (tickValues cfg n chip) chip channelOrder).dest
      ∧ ∀ ch : Chan, (tickChannels (tickValues cfg n chip) chip order).chan ch
        = (tickChannels (tickValues cfg n chip) chip channelOrder).chan ch

/-- The state after INIT is silent: with every channel's ON bit clear, a tick of any length delivers zeros and moves no
channel (rules R252, R254). -/
def Obligations.DisabledChannelsGiveSilence : Prop :=
  ∀ (n : BitVec 24) (s t : State), s.tickReady n → exec (.tick n) s = .next t →
    (∀ ch : Chan, (s.chip.chan ch).ctrl.getLsbD 7 = false) →
    t.sampleOut = List.replicate (n.toNat * (if s.chip.stereo then 2 else 1)) 0 ∧ t.chip.chans = s.chip.chans

/-! ### Faults (60_exceptions.md) -/

/-- Rule R223: every legal command but INIT and RDSTAT raises NotRunning in OFF. -/
def Obligations.OffRaisesNotRunning : Prop :=
  ∀ (i : Instr) (s : State), i.wellFormed = true → i ≠ .init → i ≠ .rdstat → s.lc = .off →
    exec i s = .next (faulted 2 s)

/-- Rule R221: an illegal word on the command port raises IllegalCommand, in OFF as in RUN. -/
def Obligations.IllegalWordRaisesIllegalCommand : Prop :=
  ∀ (s : State) (w : Word) (rest : List Word), s.cmdIn = w :: rest → decode w = none →
    step s = .next (faulted 1 { s with cmdIn := rest })

/-- Rule R225: TICK with RATE = 0 raises RateNotConfigured, for every N, 0 included. -/
def Obligations.TickWithoutRateFaults : Prop :=
  ∀ (n : BitVec 24) (s : State), s.lc = .run → s.chip.rate = 0 → exec (.tick n) s = .next (faulted 4 s)

/-- Rule R224: TICK with N × SLOTS > BUF_CAP raises BufferTooSmall. -/
def Obligations.TickBeyondTheBufferFaults : Prop :=
  ∀ (n : BitVec 24) (s : State), s.lc = .run → s.chip.rate ≠ 0 →
    s.cfg.bufCap < n.toNat * (if s.chip.stereo then 2 else 1) → exec (.tick n) s = .next (faulted 3 s)

/-- Rule R222: a command whose response carries a fault code changed nothing but FAULT, and FAULT only if it was 0. -/
def Obligations.FaultedCommandHasNoOtherEffect : Prop :=
  ∀ (i : Instr) (s t : State), exec i s = .next t → t.resp.toNat / 2 ^ 16 % 8 ≠ 0 →
    t = faulted (BitVec.ofNat 3 (t.resp.toNat / 2 ^ 16 % 8)) s ∧ t.resp.toNat / 2 ^ 16 % 8 ≤ 5

/-- Rules R222, R227: FAULT is sticky; INIT alone clears it. -/
def Obligations.FaultIsClearedByInitOnly : Prop :=
  ∀ s t : State, step s = .next t → s.fault ≠ 0 →
    (s.cmdIn.head? ≠ some 0x10000000#32 → t.fault = s.fault)
      ∧ (s.cmdIn.head? = some 0x10000000#32 → t.fault = 0)

/-- Rules R200, R201, R205: LC changes by INIT and SHUTDOWN alone; a fault does not change it. -/
def Obligations.LifecycleChangesByInitAndShutdownOnly : Prop :=
  ∀ (i : Instr) (s t : State), exec i s = .next t →
    t.lc = if i = .init then .run else if i = .shutdown then .off else s.lc

/-- Rule R31: no command but INIT writes an accumulator directly; only TICK moves one (SHUTDOWN leaves them
unspecified). -/
def Obligations.OnlyInitAndTickWriteAccumulators : Prop :=
  ∀ (i : Instr) (s t : State) (ch : Chan), exec i s = .next t → i ≠ .init → i ≠ .shutdown → (∀ n, i ≠ .tick n) →
    (t.chip.chan ch).wphase = (s.chip.chan ch).wphase ∧ (t.chip.chan ch).daphase = (s.chip.chan ch).daphase
      ∧ (t.chip.chan ch).noiseK = (s.chip.chan ch).noiseK ∧ (t.chip.chan ch).lfsr = (s.chip.chan ch).lfsr
      ∧ (t.chip.chan ch).nlevel = (s.chip.chan ch).nlevel ∧ t.chip.scr = s.chip.scr ∧ t.chip.dest = s.chip.dest

/-! ### The step -/

/-- A step executes the oldest word of the command port once it is decoded, and takes that word off the port (rule R60;
the port as a list of words is the model's, log 5). -/
def Obligations.StepRunsTheDecodedCommand : Prop :=
  ∀ (s : State) (w : Word) (rest : List Word) (i : Instr), s.cmdIn = w :: rest → decode w = some i →
    step s = exec i { s with cmdIn := rest }

/-- Rule R234: between commands the block holds its state and does nothing. -/
def Obligations.BlockHoldsItsStateBetweenCommands : Prop :=
  ∀ s : State, s.cmdIn = [] → step s = .next s

/-- With parameters rule R4 admits, every step from every state answers a next state: no command stops the block
(rules R220, R222). -/
def Obligations.EveryStepAnswersANextState : Prop :=
  ∀ s : State, s.cfg.lawful = true → ∃ t : State, step s = .next t

/-- No step writes a parameter, and every step takes exactly the oldest word off the command port (rules R4, R46). -/
def Obligations.StepsKeepParametersAndConsumeOneWord : Prop :=
  ∀ s t : State, step s = .next t → t.cfg = s.cfg ∧ t.cmdIn = s.cmdIn.tail

/-! ### Invariants -/

/-- The two invariants hold at reset, whose parameters P0 are the model's choice (log 3), and the first at power-on for
all lawful parameters (log 1). -/
def Obligations.InvariantHoldsAtReset : Prop :=
  State.reset.inv ∧ State.reset.queuesAligned ∧ ∀ cfg : Config, cfg.lawful = true → (State.powerOn cfg).inv

/-- Every step from every state that meets the invariant keeps it: FAULT stays one of the codes 0 to 5, and, while the
block runs, WPHASE stays below 2^21, DAPHASE below 2^26, DACNT at most 1024, NOISE_K below 2^24, the tables and queues
stay in canonical form inside their size, and the buffers inside BUF_CAP (rules R18, R20 to R24, R28, R29, R50, R153,
R220). -/
def Obligations.StepKeepsTheInvariant : Prop :=
  ∀ s t : State, s.inv → step s = .next t → t.inv

/-- The two sides of every queue stay in step, through every step, while the direct-audio increment is at most one slot
per sample (rules R49, R262). -/
def Obligations.StepKeepsQueuesAligned : Prop :=
  ∀ s t : State, s.inv → s.queuesAligned →
    s.cfg.clock / s.chip.rate.toNat * 2 ^ 16 % 2 ^ 32 / s.cfg.daDivisor ≤ 65536 →
    step s = .next t → t.queuesAligned

/-! ### Encoding (30_encoding.md) -/

/-- Decoding the word of a well-formed command gives the command back, every operand at every value. -/
def Obligations.DecodeOfEncodeIsTheCommand : Prop :=
  ∀ i : Instr, i.wellFormed = true → decode (encode i) = some i

/-- Every word the decoder accepts is the word of one well-formed command: no two words mean the same thing. -/
def Obligations.DecodedWordIsTheEncodedOne : Prop :=
  ∀ (w : Word) (i : Instr), decode w = some i → i.wellFormed = true ∧ encode i = w

/-- Rule R63: a word selects a command exactly when its masked bits match and the range constraints hold. -/
def Obligations.DecodeFollowsMaskAndMatch : Prop :=
  ∀ (w : Word) (imm : BitVec 24) (ch : BitVec 3) (idx data : Byte),
    (decode w = some .init ↔ w &&& 0xFFFFFFFF#32 = 0x10000000#32)
    ∧ (decode w = some .shutdown ↔ w &&& 0xFFFFFFFF#32 = 0x20000000#32)
    ∧ (decode w = some (.cfgrate imm) ↔ w &&& 0xFF000000#32 = 0x30000000#32 ∧ imm = w.extractLsb' 0 24)
    ∧ (decode w = some (.cfgstereo imm) ↔ w &&& 0xFFFFFFFE#32 = 0x40000000#32 ∧ imm = w.extractLsb' 0 24)
    ∧ (decode w = some (.wrgvol data) ↔ w &&& 0xFFFFFF00#32 = 0x50000000#32 ∧ data = w.extractLsb' 0 8)
    ∧ (decode w = some (.wrreg ch idx data) ↔ w &&& 0xF800FF00#32 = 0x60000000#32 ∧ ch = w.extractLsb' 24 3
        ∧ idx = w.extractLsb' 16 8 ∧ data = w.extractLsb' 0 8 ∧ ch.toNat ≤ 5 ∧ idx.toNat ≤ 5)
    ∧ (decode w = some (.wrwave ch idx data) ↔ w &&& 0xF800FF00#32 = 0x70000000#32 ∧ ch = w.extractLsb' 24 3
        ∧ idx = w.extractLsb' 16 8 ∧ data = w.extractLsb' 0 8 ∧ ch.toNat ≤ 5 ∧ idx.toNat ≤ 31)
    ∧ (decode w = some (.pushda ch data) ↔ w &&& 0xF8FFFF00#32 = 0x80000000#32 ∧ ch = w.extractLsb' 24 3
        ∧ data = w.extractLsb' 0 8 ∧ ch.toNat ≤ 5)
    ∧ (decode w = some (.tick imm) ↔ w &&& 0xFF000000#32 = 0x90000000#32 ∧ imm = w.extractLsb' 0 24)
    ∧ (decode w = some .rdgvol ↔ w &&& 0xFFFFFFFF#32 = 0xA0000000#32)
    ∧ (decode w = some (.rdreg ch idx) ↔ w &&& 0xF800FFFF#32 = 0xB0000000#32 ∧ ch = w.extractLsb' 24 3
        ∧ idx = w.extractLsb' 16 8 ∧ ch.toNat ≤ 5 ∧ idx.toNat ≤ 6)
    ∧ (decode w = some (.rdwave ch idx) ↔ w &&& 0xF800FFFF#32 = 0xC0000000#32 ∧ ch = w.extractLsb' 24 3
        ∧ idx = w.extractLsb' 16 8 ∧ ch.toNat ≤ 5 ∧ idx.toNat ≤ 31)
    ∧ (decode w = some .rdstat ↔ w &&& 0xFFFFFFFF#32 = 0xD0000000#32)

/-- Rule R66: the illegal words, condition by condition. -/
def Obligations.IllegalWordsAreExactlyThese : Prop :=
  ∀ w : Word, decode w = none ↔
    let op := (w.extractLsb' 28 4).toNat
    let ch := (w.extractLsb' 24 3).toNat
    let idx := (w.extractLsb' 16 8).toNat
    let imm := (w.extractLsb' 0 24).toNat
    (op = 0x0 ∨ op = 0xE ∨ op = 0xF)
    ∨ ((op = 0x1 ∨ op = 0x2 ∨ op = 0xA ∨ op = 0xD) ∧ w.extractLsb' 0 28 ≠ 0)
    ∨ ((op = 0x3 ∨ op = 0x4 ∨ op = 0x9) ∧ w.extractLsb' 24 4 ≠ 0)
    ∨ (op = 0x4 ∧ 1 < imm)
    ∨ (op = 0x5 ∧ w.extractLsb' 8 20 ≠ 0)
    ∨ ((op = 0x6 ∨ op = 0x7 ∨ op = 0x8 ∨ op = 0xB ∨ op = 0xC) ∧
        (w.extractLsb' 27 1 ≠ 0 ∨ w.extractLsb' 8 8 ≠ 0 ∨ 5 < ch))
    ∨ (op = 0x6 ∧ 5 < idx) ∨ (op = 0xB ∧ 6 < idx) ∨ ((op = 0x7 ∨ op = 0xC) ∧ 31 < idx) ∨ (op = 0x8 ∧ idx ≠ 0)
    ∨ ((op = 0xB ∨ op = 0xC) ∧ w.extractLsb' 0 8 ≠ 0)

/-- The encoding examples of 30_encoding.md section 6 and vectors E5, E6, E13 to E18 of 95_test_vectors.md. -/
def Obligations.SpecWordsDecodeAsTheSpecSays : Prop :=
  decode 0x10000000#32 = some .init ∧ decode 0x3000AC44#32 = some (.cfgrate 44100)
    ∧ decode 0x40000001#32 = some (.cfgstereo 1) ∧ decode 0x500000F3#32 = some (.wrgvol 0xF3)
    ∧ decode 0x6002009F#32 = some (.wrreg 0 2 0x9F) ∧ decode 0x731F0010#32 = some (.wrwave 3 31 16)
    ∧ decode 0x8100001F#32 = some (.pushda 1 31) ∧ decode 0x90000064#32 = some (.tick 100)
    ∧ decode 0xB5060000#32 = some (.rdreg 5 6) ∧ decode 0xC51F0000#32 = some (.rdwave 5 31)
    ∧ decode 0xD0000000#32 = some .rdstat ∧ decode 0x00000000#32 = none ∧ decode 0xFFFFFFFF#32 = none
    ∧ decode 0x66000000#32 = none ∧ decode 0x60060000#32 = none
end

