-- ==== Sys2Proof/Laws/Encoding.lean ====
section
/-! SUPPORT. The fields of an encoded command word, and a word put together from its fields (30_encoding.md rules R61,
R62). -/

namespace Sys2Proof

/-- Format Z: the opcode, and nothing below it. -/
theorem formatZ_fields (op : BitVec 4) : fieldOp (formatZ op) = op ∧ zeroOperand (formatZ op) = true := by
  revert op; decide

/-- Format I: the opcode and the immediate, with bits 27:24 clear. -/
theorem formatI_fields (op : BitVec 4) (imm : BitVec 24) :
    fieldOp (formatI op imm) = op ∧ immFormat (formatI op imm) = true ∧ fieldImm (formatI op imm) = imm := by
  refine ⟨?_, ?_, ?_⟩
  · ext i hi
    simp only [fieldOp, formatI, BitVec.getElem_extractLsb', BitVec.getLsbD_append]
    simp [show ¬ (28 + i < 28) by omega, BitVec.getLsbD_eq_getElem, hi]
  · simp only [immFormat, beq_iff_eq]
    ext i hi
    simp only [formatI, BitVec.getElem_extractLsb', BitVec.getLsbD_append]
    simp [show 24 + i < 28 by omega]
  · ext i hi
    simp only [fieldImm, formatI, BitVec.getElem_extractLsb', BitVec.getLsbD_append]
    simp [hi, show i < 28 by omega, BitVec.getLsbD_eq_getElem]

/-- Format R: the opcode and the three operands, with bit 27 and bits 15:8 clear. -/
theorem formatR_fields (op : BitVec 4) (ch : BitVec 3) (idx data : Byte) :
    fieldOp (formatR op ch idx data) = op ∧ regFormat (formatR op ch idx data) = true
      ∧ fieldCh (formatR op ch idx data) = ch ∧ fieldIdx (formatR op ch idx data) = idx
      ∧ fieldData (formatR op ch idx data) = data := by
  refine ⟨?_, ?_, ?_, ?_, ?_⟩
  · ext i hi
    simp only [fieldOp, formatR, BitVec.getElem_extractLsb', BitVec.getLsbD_append]
    simp [show ¬ (28 + i < 28) by omega, BitVec.getLsbD_eq_getElem, hi]
  · simp only [regFormat, fieldBit27, fieldMid, Bool.and_eq_true, beq_iff_eq]
    constructor
    · ext i hi
      simp only [formatR, BitVec.getElem_extractLsb', BitVec.getLsbD_append]
      simp [show i = 0 by omega]
    · ext i hi
      simp only [formatR, BitVec.getElem_extractLsb', BitVec.getLsbD_append]
      simp [show 8 + i < 16 by omega, show 8 + i < 24 by omega, show 8 + i < 27 by omega, show 8 + i < 28 by omega]
  · ext i hi
    simp only [fieldCh, formatR, BitVec.getElem_extractLsb', BitVec.getLsbD_append]
    simp [hi, show 24 + i < 27 by omega, show 24 + i < 28 by omega, BitVec.getLsbD_eq_getElem]
  · ext i hi
    simp only [fieldIdx, formatR, BitVec.getElem_extractLsb', BitVec.getLsbD_append]
    simp [hi, show 16 + i < 24 by omega, show 16 + i < 27 by omega, show 16 + i < 28 by omega,
      BitVec.getLsbD_eq_getElem]
  · ext i hi
    simp only [fieldData, formatR, BitVec.getElem_extractLsb', BitVec.getLsbD_append]
    simp [hi, show i < 16 by omega, show i < 24 by omega, show i < 27 by omega, show i < 28 by omega,
      BitVec.getLsbD_eq_getElem]

/-- A slice that is 0 has no bit set. -/
theorem slice_zero {w : Word} {a b i : Nat} (h : w.extractLsb' a b = 0) (h1 : a ≤ i) (h2 : i < a + b) :
    w.getLsbD i = false := by
  have hb : i - a < b := by omega
  have h3 : (w.extractLsb' a b).getLsbD (i - a) = false := by simp [h]
  simpa [BitVec.getLsbD_extractLsb', hb, show a + (i - a) = i by omega] using h3

/-- A word of format Z is its opcode above zeros. -/
theorem formatZ_of_fields {w : Word} (h : w.extractLsb' 0 28 = 0) : formatZ (fieldOp w) = w := by
  apply BitVec.eq_of_getLsbD_eq
  intro i hi
  simp only [formatZ, BitVec.getLsbD_append]
  by_cases h1 : i < 28
  · simp [h1, slice_zero h (Nat.zero_le i) (by omega)]
  · simp [h1, fieldOp, show i - 28 < 4 by omega, show 28 + (i - 28) = i by omega]

/-- A word of format I is its opcode above zeros and its immediate. -/
theorem formatI_of_fields {w : Word} (h : w.extractLsb' 24 4 = 0) : formatI (fieldOp w) (fieldImm w) = w := by
  apply BitVec.eq_of_getLsbD_eq
  intro i hi
  simp only [formatI, BitVec.getLsbD_append]
  by_cases h1 : i < 28
  · by_cases h2 : i < 24
    · simp [h1, h2, fieldImm]
    · simp [h1, h2, slice_zero h (by omega : 24 ≤ i) (by omega)]
  · simp [h1, fieldOp, show i - 28 < 4 by omega, show 28 + (i - 28) = i by omega]

/-- A word of format R is its opcode, its channel, its index and its data, with zeros between. -/
theorem formatR_of_fields {w : Word} (h27 : fieldBit27 w = 0) (hmid : fieldMid w = 0) :
    formatR (fieldOp w) (fieldCh w) (fieldIdx w) (fieldData w) = w := by
  apply BitVec.eq_of_getLsbD_eq
  intro i hi
  simp only [formatR, BitVec.getLsbD_append]
  by_cases h1 : i < 28
  · by_cases h2 : i < 27
    · by_cases h3 : i < 24
      · by_cases h4 : i < 16
        · by_cases h5 : i < 8
          · simp [h1, h2, h3, h4, h5, fieldData]
          · simp [h1, h2, h3, h4, h5, slice_zero hmid (by omega : 8 ≤ i) (by omega)]
        · simp [h1, h2, h3, h4, fieldIdx, show i - 16 < 8 by omega,
            show 16 + (i - 16) = i by omega]
      · simp [h1, h2, h3, fieldCh, show i - 24 < 3 by omega,
          show 24 + (i - 24) = i by omega]
    · simp [h1, h2, slice_zero h27 (by omega : 27 ≤ i) (by omega)]
  · simp [h1, fieldOp, show i - 28 < 4 by omega, show 28 + (i - 28) = i by omega]

end Sys2Proof
end

