-- ==== Sys2Proof/Laws/State.lean ====
section
/-! SUPPORT. One lemma per field per update of the state, the Chip State and a channel. -/

namespace Sys2Proof.Machine

@[simp] theorem answer_lc (rdata : BitVec 16) (s : State) :
    (answer rdata s).lc = s.lc := rfl

@[simp] theorem answer_fault (rdata : BitVec 16) (s : State) :
    (answer rdata s).fault = s.fault := rfl

@[simp] theorem answer_chip (rdata : BitVec 16) (s : State) :
    (answer rdata s).chip = s.chip := rfl

@[simp] theorem answer_cfg (rdata : BitVec 16) (s : State) :
    (answer rdata s).cfg = s.cfg := rfl

@[simp] theorem answer_cmdIn (rdata : BitVec 16) (s : State) :
    (answer rdata s).cmdIn = s.cmdIn := rfl

@[simp] theorem answer_resp (rdata : BitVec 16) (s : State) :
    (answer rdata s).resp = responseWord 0 rdata := rfl

@[simp] theorem answer_sampleOut (rdata : BitVec 16) (s : State) :
    (answer rdata s).sampleOut = [] := rfl

@[simp] theorem answer_freeCount (rdata : BitVec 16) (s : State) :
    (answer rdata s).freeCount = s.freeCount := rfl

@[simp] theorem updateChannel_lc (s : State) (ch : Chan) (f : Channel → Channel) :
    (updateChannel s ch f).lc = s.lc := rfl

@[simp] theorem updateChannel_fault (s : State) (ch : Chan) (f : Channel → Channel) :
    (updateChannel s ch f).fault = s.fault := rfl

@[simp] theorem updateChannel_chip (s : State) (ch : Chan) (f : Channel → Channel) :
    (updateChannel s ch f).chip = s.chip.setChan ch (f (s.chip.chan ch)) := rfl

@[simp] theorem updateChannel_cfg (s : State) (ch : Chan) (f : Channel → Channel) :
    (updateChannel s ch f).cfg = s.cfg := rfl

@[simp] theorem updateChannel_cmdIn (s : State) (ch : Chan) (f : Channel → Channel) :
    (updateChannel s ch f).cmdIn = s.cmdIn := rfl

@[simp] theorem updateChannel_resp (s : State) (ch : Chan) (f : Channel → Channel) :
    (updateChannel s ch f).resp = s.resp := rfl

@[simp] theorem updateChannel_sampleOut (s : State) (ch : Chan) (f : Channel → Channel) :
    (updateChannel s ch f).sampleOut = s.sampleOut := rfl

@[simp] theorem updateChannel_freeCount (s : State) (ch : Chan) (f : Channel → Channel) :
    (updateChannel s ch f).freeCount = s.freeCount := rfl

@[simp] theorem issueNext_lc (w : Word) (s : State) :
    (issueNext w s).lc = s.lc := rfl

@[simp] theorem issueNext_fault (w : Word) (s : State) :
    (issueNext w s).fault = s.fault := rfl

@[simp] theorem issueNext_chip (w : Word) (s : State) :
    (issueNext w s).chip = s.chip := rfl

@[simp] theorem issueNext_cfg (w : Word) (s : State) :
    (issueNext w s).cfg = s.cfg := rfl

@[simp] theorem issueNext_cmdIn (w : Word) (s : State) :
    (issueNext w s).cmdIn = w :: s.cmdIn := rfl

@[simp] theorem issueNext_resp (w : Word) (s : State) :
    (issueNext w s).resp = s.resp := rfl

@[simp] theorem issueNext_sampleOut (w : Word) (s : State) :
    (issueNext w s).sampleOut = s.sampleOut := rfl

@[simp] theorem issueNext_freeCount (w : Word) (s : State) :
    (issueNext w s).freeCount = s.freeCount := rfl

@[simp] theorem setChan_gvol (c : Chip) (ch : Chan) (x : Channel) :
    (c.setChan ch x).gvol = c.gvol := rfl

@[simp] theorem setChan_stereo (c : Chip) (ch : Chan) (x : Channel) :
    (c.setChan ch x).stereo = c.stereo := rfl

@[simp] theorem setChan_rate (c : Chip) (ch : Chan) (x : Channel) :
    (c.setChan ch x).rate = c.rate := rfl

@[simp] theorem setChan_chans (c : Chip) (ch : Chan) (x : Channel) :
    (c.setChan ch x).chans = c.chans.set ch x := rfl

@[simp] theorem setChan_scr (c : Chip) (ch : Chan) (x : Channel) :
    (c.setChan ch x).scr = c.scr := rfl

@[simp] theorem setChan_dest (c : Chip) (ch : Chan) (x : Channel) :
    (c.setChan ch x).dest = c.dest := rfl

@[simp] theorem queuePush_freqLo (v : Amp) (c : Channel) :
    (queuePush v c).freqLo = c.freqLo := rfl

@[simp] theorem queuePush_freqHi (v : Amp) (c : Channel) :
    (queuePush v c).freqHi = c.freqHi := rfl

@[simp] theorem queuePush_ctrl (v : Amp) (c : Channel) :
    (queuePush v c).ctrl = c.ctrl := rfl

@[simp] theorem queuePush_bal (v : Amp) (c : Channel) :
    (queuePush v c).bal = c.bal := rfl

@[simp] theorem queuePush_noise (v : Amp) (c : Channel) :
    (queuePush v c).noise = c.noise := rfl

@[simp] theorem queuePush_widx (v : Amp) (c : Channel) :
    (queuePush v c).widx = c.widx := rfl

@[simp] theorem queuePush_dacnt (v : Amp) (c : Channel) :
    (queuePush v c).dacnt = c.dacnt + 1 := rfl

@[simp] theorem queuePush_wave (v : Amp) (c : Channel) :
    (queuePush v c).wave = c.wave := rfl

@[simp] theorem queuePush_daq (v : Amp) (c : Channel) :
    (queuePush v c).daq = memWrite c.daq c.dawr.toNat v := rfl

@[simp] theorem queuePush_dawr (v : Amp) (c : Channel) :
    (queuePush v c).dawr = c.dawr + 1 := rfl

@[simp] theorem queuePush_wphase (v : Amp) (c : Channel) :
    (queuePush v c).wphase = c.wphase := rfl

@[simp] theorem queuePush_daphase (v : Amp) (c : Channel) :
    (queuePush v c).daphase = c.daphase := rfl

@[simp] theorem queuePush_noiseK (v : Amp) (c : Channel) :
    (queuePush v c).noiseK = c.noiseK := rfl

@[simp] theorem queuePush_lfsr (v : Amp) (c : Channel) :
    (queuePush v c).lfsr = c.lfsr := rfl

@[simp] theorem queuePush_nlevel (v : Amp) (c : Channel) :
    (queuePush v c).nlevel = c.nlevel := rfl

@[simp] theorem advanceWave_freqLo (inc : Nat) (c : Channel) :
    (advanceWave inc c).freqLo = c.freqLo := rfl

@[simp] theorem advanceWave_freqHi (inc : Nat) (c : Channel) :
    (advanceWave inc c).freqHi = c.freqHi := rfl

@[simp] theorem advanceWave_ctrl (inc : Nat) (c : Channel) :
    (advanceWave inc c).ctrl = c.ctrl := rfl

@[simp] theorem advanceWave_bal (inc : Nat) (c : Channel) :
    (advanceWave inc c).bal = c.bal := rfl

@[simp] theorem advanceWave_noise (inc : Nat) (c : Channel) :
    (advanceWave inc c).noise = c.noise := rfl

@[simp] theorem advanceWave_widx (inc : Nat) (c : Channel) :
    (advanceWave inc c).widx = (wavePhaseAfter inc c.wphase).extractLsb' 16 8 := rfl

@[simp] theorem advanceWave_dacnt (inc : Nat) (c : Channel) :
    (advanceWave inc c).dacnt = c.dacnt := rfl

@[simp] theorem advanceWave_wave (inc : Nat) (c : Channel) :
    (advanceWave inc c).wave = c.wave := rfl

@[simp] theorem advanceWave_daq (inc : Nat) (c : Channel) :
    (advanceWave inc c).daq = c.daq := rfl

@[simp] theorem advanceWave_dawr (inc : Nat) (c : Channel) :
    (advanceWave inc c).dawr = c.dawr := rfl

@[simp] theorem advanceWave_wphase (inc : Nat) (c : Channel) :
    (advanceWave inc c).wphase = wavePhaseAfter inc c.wphase := rfl

@[simp] theorem advanceWave_daphase (inc : Nat) (c : Channel) :
    (advanceWave inc c).daphase = c.daphase := rfl

@[simp] theorem advanceWave_noiseK (inc : Nat) (c : Channel) :
    (advanceWave inc c).noiseK = c.noiseK := rfl

@[simp] theorem advanceWave_lfsr (inc : Nat) (c : Channel) :
    (advanceWave inc c).lfsr = c.lfsr := rfl

@[simp] theorem advanceWave_nlevel (inc : Nat) (c : Channel) :
    (advanceWave inc c).nlevel = c.nlevel := rfl

@[simp] theorem advanceDirect_freqLo (inc : Nat) (c : Channel) :
    (advanceDirect inc c).freqLo = c.freqLo := rfl

@[simp] theorem advanceDirect_freqHi (inc : Nat) (c : Channel) :
    (advanceDirect inc c).freqHi = c.freqHi := rfl

@[simp] theorem advanceDirect_ctrl (inc : Nat) (c : Channel) :
    (advanceDirect inc c).ctrl = c.ctrl := rfl

@[simp] theorem advanceDirect_bal (inc : Nat) (c : Channel) :
    (advanceDirect inc c).bal = c.bal := rfl

@[simp] theorem advanceDirect_noise (inc : Nat) (c : Channel) :
    (advanceDirect inc c).noise = c.noise := rfl

@[simp] theorem advanceDirect_widx (inc : Nat) (c : Channel) :
    (advanceDirect inc c).widx = c.widx := rfl

@[simp] theorem advanceDirect_dacnt (inc : Nat) (c : Channel) :
    (advanceDirect inc c).dacnt = c.dacnt := rfl

@[simp] theorem advanceDirect_wave (inc : Nat) (c : Channel) :
    (advanceDirect inc c).wave = c.wave := rfl

@[simp] theorem advanceDirect_daq (inc : Nat) (c : Channel) :
    (advanceDirect inc c).daq = c.daq := rfl

@[simp] theorem advanceDirect_dawr (inc : Nat) (c : Channel) :
    (advanceDirect inc c).dawr = c.dawr := rfl

@[simp] theorem advanceDirect_wphase (inc : Nat) (c : Channel) :
    (advanceDirect inc c).wphase = c.wphase := rfl

@[simp] theorem advanceDirect_daphase (inc : Nat) (c : Channel) :
    (advanceDirect inc c).daphase = directPhaseAfter inc c.daphase := rfl

@[simp] theorem advanceDirect_noiseK (inc : Nat) (c : Channel) :
    (advanceDirect inc c).noiseK = c.noiseK := rfl

@[simp] theorem advanceDirect_lfsr (inc : Nat) (c : Channel) :
    (advanceDirect inc c).lfsr = c.lfsr := rfl

@[simp] theorem advanceDirect_nlevel (inc : Nat) (c : Channel) :
    (advanceDirect inc c).nlevel = c.nlevel := rfl

@[simp] theorem zeroFill_gvol (t : TickValues) (chip : Chip) :
    (zeroFill t chip).gvol = chip.gvol := rfl

@[simp] theorem zeroFill_stereo (t : TickValues) (chip : Chip) :
    (zeroFill t chip).stereo = chip.stereo := rfl

@[simp] theorem zeroFill_rate (t : TickValues) (chip : Chip) :
    (zeroFill t chip).rate = chip.rate := rfl

@[simp] theorem zeroFill_chans (t : TickValues) (chip : Chip) :
    (zeroFill t chip).chans = chip.chans := rfl

@[simp] theorem zeroFill_scr (t : TickValues) (chip : Chip) :
    (zeroFill t chip).scr = chip.scr := rfl

@[simp] theorem zeroFill_dest (t : TickValues) (chip : Chip) :
    (zeroFill t chip).dest = List.replicate t.cells 0 ++ chip.dest.drop t.cells := rfl

@[simp] theorem mix_gvol (t : TickValues) (chip : Chip) :
    (mix t chip).gvol = chip.gvol := rfl

@[simp] theorem mix_stereo (t : TickValues) (chip : Chip) :
    (mix t chip).stereo = chip.stereo := rfl

@[simp] theorem mix_rate (t : TickValues) (chip : Chip) :
    (mix t chip).rate = chip.rate := rfl

@[simp] theorem mix_chans (t : TickValues) (chip : Chip) :
    (mix t chip).chans = chip.chans := rfl

@[simp] theorem mix_scr (t : TickValues) (chip : Chip) :
    (mix t chip).scr = chip.scr := rfl

@[simp] theorem mix_dest (t : TickValues) (chip : Chip) :
    (mix t chip).dest = mixCells t 0 (chip.scr.take t.cells) chip.dest := rfl

@[simp] theorem writeReg_dacnt (c : Channel) (r : RegName) (v : Byte) :
    (c.writeReg r v).dacnt = c.dacnt := by cases r <;> rfl

@[simp] theorem writeReg_wave (c : Channel) (r : RegName) (v : Byte) :
    (c.writeReg r v).wave = c.wave := by cases r <;> rfl

@[simp] theorem writeReg_daq (c : Channel) (r : RegName) (v : Byte) :
    (c.writeReg r v).daq = c.daq := by cases r <;> rfl

@[simp] theorem writeReg_dawr (c : Channel) (r : RegName) (v : Byte) :
    (c.writeReg r v).dawr = c.dawr := by cases r <;> rfl

@[simp] theorem writeReg_wphase (c : Channel) (r : RegName) (v : Byte) :
    (c.writeReg r v).wphase = c.wphase := by cases r <;> rfl

@[simp] theorem writeReg_daphase (c : Channel) (r : RegName) (v : Byte) :
    (c.writeReg r v).daphase = c.daphase := by cases r <;> rfl

@[simp] theorem writeReg_noiseK (c : Channel) (r : RegName) (v : Byte) :
    (c.writeReg r v).noiseK = c.noiseK := by cases r <;> rfl

@[simp] theorem writeReg_lfsr (c : Channel) (r : RegName) (v : Byte) :
    (c.writeReg r v).lfsr = c.lfsr := by cases r <;> rfl

@[simp] theorem writeReg_nlevel (c : Channel) (r : RegName) (v : Byte) :
    (c.writeReg r v).nlevel = c.nlevel := by cases r <;> rfl

@[simp] theorem chan_setChan_same (c : Chip) (ch : Chan) (x : Channel) : (c.setChan ch x).chan ch = x := by
  simp [Chip.chan, Chip.setChan, Vector.get_eq_getElem]

theorem chan_setChan_other (c : Chip) {ch ch' : Chan} (h : ch' ≠ ch) (x : Channel) :
    (c.setChan ch x).chan ch' = c.chan ch' := by
  have : ch.val ≠ ch'.val := fun e => h (Fin.ext e.symm)
  simp [Chip.chan, Chip.setChan, Vector.get_eq_getElem, Vector.getElem_set_ne, this]

theorem chan_setChan (c : Chip) (ch ch' : Chan) (x : Channel) :
    (c.setChan ch x).chan ch' = if ch' = ch then x else c.chan ch' := by
  by_cases h : ch' = ch
  · subst h; simp
  · simp [h, chan_setChan_other c h]

/-- Two lists of channels that agree at every index are one. -/
theorem chans_ext {c d : Chip} (h : ∀ ch, c.chan ch = d.chan ch) : c.chans = d.chans := by
  apply Vector.ext
  intro i hi
  simpa [Chip.chan, Vector.get_eq_getElem] using h ⟨i, hi⟩

theorem readReg_writeReg (c : Channel) (r q : RegName) (v : Byte) :
    (c.writeReg r v).readReg q = if q = r then v else c.readReg q := by
  cases r <;> cases q <;> rfl

@[simp] theorem readReg_writeReg_same (c : Channel) (r : RegName) (v : Byte) :
    (c.writeReg r v).readReg r = v := by
  simp [readReg_writeReg]

/-- Every channel of the Chip State after INIT is a reset channel with its own seed. -/
theorem resetChip_chan (cfg : Config) (ch : Chan) :
    (resetChip cfg).chan ch = resetChannel (cfg.noiseSeed.get ch) cfg.noiseLevelReset := by
  match ch with
  | 0 | 1 | 2 | 3 | 4 | 5 => rfl

end Sys2Proof.Machine
end

