-- ==== Sys2Proof/Laws/Memory.lean ====
section
/-! SUPPORT. The laws of tables and queues: read after write, the canonical form, and that the form decides equality. -/

namespace Sys2Proof.Machine

@[simp] theorem memRead_nil (i : Nat) : memRead [] i = unlistedCell := rfl

theorem memRead_cons (j : Nat) (v : Amp) (m : Memory) (i : Nat) :
    memRead ((j, v) :: m) i = if i = j then v else memRead m i := rfl

/-- An index that is not listed reads as an unlisted cell. -/
theorem memRead_unlisted (m : Memory) (i : Nat) (h : ∀ p ∈ m, p.1 ≠ i) : memRead m i = unlistedCell := by
  induction m with
  | nil => rfl
  | cons p m ih =>
    obtain ⟨j, v⟩ := p
    have hj : i ≠ j := fun e => h (j, v) (by simp) e.symm
    rw [memRead_cons, if_neg hj]
    exact ih fun q hq => h q (by simp [hq])

/-- The canonical form, as a proposition. -/
theorem Memory.wf_iff (size : Nat) (m : Memory) :
    Memory.wf size m = true ↔
      m.Pairwise (fun a b => a.1 < b.1) ∧ ∀ p ∈ m, p.1 < size ∧ p.2 ≠ unlistedCell := by
  simp [Memory.wf]

@[simp] theorem Memory.wf_nil (size : Nat) : Memory.wf size [] = true := by simp [Memory.wf]

/-- The sorted part of the canonical form. -/
abbrev risingIndices (m : Memory) : Prop := m.Pairwise fun a b => a.1 < b.1

theorem memRead_below {m : Memory} {i : Nat} (h : ∀ p ∈ m, i < p.1) : memRead m i = unlistedCell :=
  memRead_unlisted m i fun p hp e => absurd (h p hp) (by omega)

/-- Read after write on a list with rising indices. -/
theorem memRead_memWrite (m : Memory) (hm : risingIndices m) (i k : Nat) (v : Amp) :
    memRead (memWrite m i v) k = if k = i then v else memRead m k := by
  induction m with
  | nil =>
    by_cases hv : v = unlistedCell
    · simp [memWrite, hv]
    · simp [memWrite, hv, memRead_cons]
  | cons p m ih =>
    obtain ⟨j, u⟩ := p
    obtain ⟨hj, hm'⟩ := List.pairwise_cons.mp hm
    have hlow : ∀ x, x ≤ j → memRead m x = unlistedCell := fun x hx =>
      memRead_below fun p hp => lt_of_le_of_lt hx (hj p hp)
    simp only [memWrite]
    by_cases h1 : i < j
    · have h0 : memRead ((j, u) :: m) i = unlistedCell := by
        rw [memRead_cons, if_neg (by omega), hlow i (by omega)]
      by_cases hv : v = unlistedCell
      · simp only [h1, hv, if_true]
        by_cases hk : k = i
        · simp only [hk, h0, if_true]
        · simp [hk]
      · simp only [h1, hv, if_true, if_false]
        rw [memRead_cons]
    · by_cases h2 : i = j
      · subst h2
        by_cases hv : v = unlistedCell
        · simp only [lt_irrefl, hv, if_true, if_false]
          by_cases hk : k = i
          · simp only [hk, if_true, hlow i le_rfl]
          · simp [hk, memRead_cons]
        · simp only [lt_irrefl, hv, if_true, if_false]
          by_cases hk : k = i <;> simp [hk, memRead_cons]
      · simp only [h1, h2, if_false, memRead_cons, ih hm']
        by_cases hk : k = i
        · have : k ≠ j := by omega
          simp [hk, h2]
        · simp [hk]

theorem memWrite_index {m : Memory} {i : Nat} {v : Amp} {p : Nat × Amp} (hp : p ∈ memWrite m i v) :
    p ∈ m ∨ (p = (i, v) ∧ v ≠ unlistedCell) := by
  induction m with
  | nil =>
    by_cases hv : v = unlistedCell
    · simp [memWrite, hv] at hp
    · simp [memWrite, hv] at hp; exact .inr ⟨hp, hv⟩
  | cons q m ih =>
    obtain ⟨j, u⟩ := q
    simp only [memWrite] at hp
    by_cases hv : v = unlistedCell
    · simp only [hv, if_true] at hp
      split_ifs at hp
      · exact .inl hp
      · exact .inl (List.mem_cons_of_mem _ hp)
      · rcases List.mem_cons.mp hp with rfl | h
        · exact .inl (by simp)
        · rcases ih (by rw [hv]; exact h) with h | h
          · exact .inl (List.mem_cons_of_mem _ h)
          · exact .inr h
    · simp only [hv, if_false] at hp
      split_ifs at hp
      · rcases List.mem_cons.mp hp with rfl | h
        · exact .inr ⟨rfl, hv⟩
        · exact .inl h
      · rcases List.mem_cons.mp hp with rfl | h
        · exact .inr ⟨rfl, hv⟩
        · exact .inl (List.mem_cons_of_mem _ h)
      · rcases List.mem_cons.mp hp with rfl | h
        · exact .inl (by simp)
        · rcases ih h with h | h
          · exact .inl (List.mem_cons_of_mem _ h)
          · exact .inr h

theorem memWrite_rising {m : Memory} (hm : risingIndices m) (i : Nat) (v : Amp) :
    risingIndices (memWrite m i v) := by
  induction m with
  | nil => by_cases hv : v = unlistedCell <;> simp [memWrite, hv, risingIndices]
  | cons q m ih =>
    obtain ⟨j, u⟩ := q
    obtain ⟨hj, hm'⟩ := List.pairwise_cons.mp hm
    simp only [memWrite]
    split_ifs with h1 hv h2 hv
    · exact hm
    · refine List.pairwise_cons.mpr ⟨?_, hm⟩
      intro p hp
      rcases List.mem_cons.mp hp with rfl | h
      · exact h1
      · exact lt_trans h1 (hj p h)
    · exact hm'
    · subst h2
      exact List.pairwise_cons.mpr ⟨fun p hp => hj p hp, hm'⟩
    · refine List.pairwise_cons.mpr ⟨?_, ih hm'⟩
      intro p hp
      rcases memWrite_index hp with h | ⟨rfl, -⟩
      · exact hj p h
      · show j < i
        omega

/-- Every write inside the table keeps the canonical form. -/
theorem memWrite_wf {size : Nat} {m : Memory} (hm : Memory.wf size m = true) {i : Nat} (hi : i < size) (v : Amp) :
    Memory.wf size (memWrite m i v) = true := by
  rw [Memory.wf_iff] at hm ⊢
  refine ⟨memWrite_rising hm.1 i v, fun p hp => ?_⟩
  rcases memWrite_index hp with h | ⟨rfl, hv⟩
  · exact hm.2 p h
  · exact ⟨hi, hv⟩

/-- Read after write on a table in canonical form. -/
theorem memRead_memWrite_wf {size : Nat} {m : Memory} (hm : Memory.wf size m = true) (i k : Nat) (v : Amp) :
    memRead (memWrite m i v) k = if k = i then v else memRead m k :=
  memRead_memWrite m ((Memory.wf_iff size m).mp hm).1 i k v

/-- Equal tables are equal data: two canonical tables that read alike at every index are one list. -/
theorem memory_ext {size : Nat} {m n : Memory} (hm : Memory.wf size m = true) (hn : Memory.wf size n = true)
    (h : ∀ i, memRead m i = memRead n i) : m = n := by
  rw [Memory.wf_iff] at hm hn
  induction m generalizing n with
  | nil =>
    cases n with
    | nil => rfl
    | cons q n =>
      obtain ⟨j, u⟩ := q
      exact absurd (by simpa [memRead_cons] using (h j).symm) (hn.2 (j, u) (by simp)).2
  | cons p m ih =>
    cases n with
    | nil =>
      obtain ⟨i, v⟩ := p
      exact absurd (by simpa [memRead_cons] using h i) (hm.2 (i, v) (by simp)).2
    | cons q n =>
      obtain ⟨i, v⟩ := p
      obtain ⟨j, u⟩ := q
      have hm1 := List.pairwise_cons.mp hm.1
      have hn1 := List.pairwise_cons.mp hn.1
      have hij : i = j := by
        rcases lt_trichotomy i j with hlt | heq | hlt
        · have hz : memRead ((j, u) :: n) i = unlistedCell := by
            rw [memRead_cons, if_neg (by omega)]
            exact memRead_below fun p hp => lt_trans hlt (hn1.1 p hp)
          exact absurd (by simpa [memRead_cons] using (h i).trans hz) (hm.2 (i, v) (by simp)).2
        · exact heq
        · have hz : memRead ((i, v) :: m) j = unlistedCell := by
            rw [memRead_cons, if_neg (by omega)]
            exact memRead_below fun p hp => lt_trans hlt (hm1.1 p hp)
          exact absurd (by simpa [memRead_cons] using (h j).symm.trans hz) (hn.2 (j, u) (by simp)).2
      subst hij
      have hvu : v = u := by simpa [memRead_cons] using h i
      subst hvu
      have hrest : m = n := by
        refine ih ⟨hm1.2, fun p hp => hm.2 p (List.mem_cons_of_mem _ hp)⟩
          (hn := ⟨hn1.2, fun p hp => hn.2 p (List.mem_cons_of_mem _ hp)⟩) fun k => ?_
        by_cases hk : k = i
        · rw [hk, memRead_below fun p hp => hm1.1 p hp, memRead_below fun p hp => hn1.1 p hp]
        · simpa [memRead_cons, hk] using h k
      rw [hrest]

end Sys2Proof.Machine
end

