-- ==== Sys2Proof/Laws/Ops.lean ====
section
/-! SUPPORT. What each shared operation over a command can answer, said once. -/

namespace Sys2Proof.Machine

/-- A fault always answers a next state: the fault entry of 60_exceptions.md rule R222. -/
theorem raise_eq (f : FaultName) (s : State) :
    raise f s = .next { s with
      fault := recordFault s.fault (faultCode f), resp := responseWord (faultCode f) 0, sampleOut := [] } := rfl

theorem whileRunning_run {s : State} (h : s.lc = .run) (k : Result) : whileRunning s k = k := by
  simp [whileRunning, h]

theorem whileRunning_off {s : State} (h : s.lc = .off) (k : Result) : whileRunning s k = raise .notRunning s := by
  simp [whileRunning, h]

/-- The lifecycle test answers the command's own outcome or the NotRunning fault. -/
theorem whileRunning_cases (s : State) (k : Result) :
    (s.lc = .run ∧ whileRunning s k = k) ∨ (s.lc = .off ∧ whileRunning s k = raise .notRunning s) := by
  cases h : s.lc
  · exact .inr ⟨rfl, whileRunning_off h k⟩
  · exact .inl ⟨rfl, whileRunning_run h k⟩

theorem withOperand_some {α : Type} {o : Option α} {a : α} (h : o = some a) (s : State) (k : α → Result) :
    withOperand o s k = k a := by
  simp [withOperand, h]

theorem withOperand_none {α : Type} {o : Option α} (h : o = none) (s : State) (k : α → Result) :
    withOperand o s k = raise .illegalCommand s := by
  simp [withOperand, h]

/-- An operand is in range, or the command is illegal. -/
theorem withOperand_cases {α : Type} (o : Option α) (s : State) (k : α → Result) :
    (∃ a, o = some a ∧ withOperand o s k = k a) ∨ (o = none ∧ withOperand o s k = raise .illegalCommand s) := by
  cases o with
  | none => exact .inr ⟨rfl, rfl⟩
  | some a => exact .inl ⟨a, rfl, rfl⟩

/-- The first recorded fault stays. -/
theorem recordFault_sticky {old : BitVec 3} (h : old ≠ 0) (c : BitVec 3) : recordFault old c = old :=
  if_neg h

@[simp] theorem recordFault_zero (c : BitVec 3) : recordFault 0 c = c := by simp [recordFault]

theorem faultCode_ne_zero (f : FaultName) : faultCode f ≠ 0 := by cases f <;> decide

/-- `STATUS` of a response word. -/
@[simp] theorem responseWord_status (st : BitVec 3) (d : BitVec 16) :
    (responseWord st d).extractLsb' 16 3 = st := by
  ext i hi
  simp only [responseWord, BitVec.getElem_extractLsb', BitVec.getLsbD_setWidth, BitVec.getLsbD_append]
  simp [hi, show 16 + i < 32 by omega, BitVec.getLsbD_eq_getElem]

/-- `RDATA` of a response word. -/
@[simp] theorem responseWord_rdata (st : BitVec 3) (d : BitVec 16) :
    (responseWord st d).extractLsb' 0 16 = d := by
  ext i hi
  simp only [responseWord, BitVec.getElem_extractLsb', BitVec.getLsbD_setWidth, BitVec.getLsbD_append]
  simp [hi, show i < 32 by omega, BitVec.getLsbD_eq_getElem]

/-- A response word as a number: the code above the 16 bits of the data. -/
theorem responseWord_toNat (st : BitVec 3) (d : BitVec 16) :
    (responseWord st d).toNat = st.toNat * 2 ^ 16 + d.toNat := by
  have hd := d.isLt
  have hs := st.isLt
  simp only [responseWord, BitVec.toNat_setWidth, BitVec.toNat_append]
  rw [← Nat.shiftLeft_add_eq_or_of_lt hd, Nat.shiftLeft_eq]
  omega

theorem channelOperand_some_iff (ch : BitVec 3) (c : Chan) : channelOperand ch = some c ↔ ch.toNat = c.val := by
  unfold channelOperand
  constructor
  · intro h
    split at h
    · cases h; rfl
    · cases h
  · intro h
    rw [dif_pos (by omega)]
    simp [h]

theorem channelOperand_none_iff (ch : BitVec 3) : channelOperand ch = none ↔ 6 ≤ ch.toNat := by
  unfold channelOperand
  split <;> simp <;> omega

theorem waveOperand_some_iff (idx : Byte) (k : Fin 32) : waveOperand idx = some k ↔ idx.toNat = k.val := by
  unfold waveOperand
  constructor
  · intro h
    split at h
    · cases h; rfl
    · cases h
  · intro h
    rw [dif_pos (by omega)]
    simp [h]

theorem waveOperand_none_iff (idx : Byte) : waveOperand idx = none ↔ 32 ≤ idx.toNat := by
  unfold waveOperand
  split <;> simp <;> omega

theorem writeRegOperand_none_iff (idx : Byte) : writeRegOperand idx = none ↔ 6 ≤ idx.toNat := by
  unfold writeRegOperand
  split <;> constructor <;> intro h <;> (try simp only [imp_false] at *) <;> first | omega | rfl | cases h

theorem readRegOperand_none_iff (idx : Byte) : readRegOperand idx = none ↔ 7 ≤ idx.toNat := by
  unfold readRegOperand
  split
  · simp; omega
  · rw [Option.map_eq_none_iff, writeRegOperand_none_iff]; omega

theorem flagOperand_none_iff (imm : BitVec 24) : flagOperand imm = none ↔ 2 ≤ imm.toNat := by
  unfold flagOperand
  split <;> constructor <;> intro h <;> (try simp only [imp_false] at *) <;> first | omega | rfl | cases h

end Sys2Proof.Machine
end

