-- ==== Sys2Proof/Laws/Tick.lean ====
section
/-! SUPPORT. What the generators, the mixer and TICK can do, said once: how many cells they fill and which elements
they leave alone. -/

namespace Sys2Proof.Machine

/-! ### How many cells -/

@[simp] theorem emit_length (t : TickValues) (v : ChannelValues) (s : Int) :
    (emit t v s).length = slotsOf t.stereo := by
  unfold emit slotsOf
  split <;> rfl

@[simp] theorem silence_length (t : TickValues) (count : Nat) :
    (silence t count).length = count * slotsOf t.stereo := by
  simp [silence]

theorem sampleLoop_zero (f : Channel → Channel × List Byte) (c : Channel) : sampleLoop f 0 c = (c, []) := rfl

theorem sampleLoop_succ (f : Channel → Channel × List Byte) (n : Nat) (c : Channel) :
    sampleLoop f (n + 1) c = ((sampleLoop f n (f c).1).1, (f c).2 ++ (sampleLoop f n (f c).1).2) := rfl

/-- The channel after a loop of `n` samples. -/
theorem sampleLoop_fst (f : Channel → Channel × List Byte) (n : Nat) (c : Channel) :
    (sampleLoop f n c).1 = (fun c => (f c).1)^[n] c := by
  induction n generalizing c with
  | zero => rfl
  | succ n ih => rw [sampleLoop_succ, Function.iterate_succ_apply]; exact ih _

/-- The channel after a noise tick: one pass of the divider per sample. -/
theorem noiseGenerator_fst (t : TickValues) (v : ChannelValues) (c : Channel) :
    (noiseGenerator t v c).1 = (noiseDivider t v.ninc)^[t.n] c :=
  sampleLoop_fst _ _ _

/-- A loop whose samples have `k` cells each fills `n * k` cells. -/
theorem sampleLoop_length {f : Channel → Channel × List Byte} {k : Nat} (hf : ∀ c, (f c).2.length = k)
    (n : Nat) (c : Channel) : (sampleLoop f n c).2.length = n * k := by
  induction n generalizing c with
  | zero => simp [sampleLoop_zero]
  | succ n ih => simp only [sampleLoop_succ, List.length_append, hf, ih]; ring

/-- What every sample keeps, the loop keeps. -/
theorem sampleLoop_keeps {f : Channel → Channel × List Byte} {P : Channel → Prop}
    (hf : ∀ c, P c → P (f c).1) (n : Nat) (c : Channel) (hc : P c) : P (sampleLoop f n c).1 := by
  induction n generalizing c with
  | zero => exact hc
  | succ n ih => exact ih _ (hf c hc)

theorem queueTransition_eq (idx : BitVec 10) (c : Channel) :
    queueTransition idx c =
      (c.queueSlot, if c.queueSlot = idx then c else { c with dacnt := c.dacnt - 1 }) := by
  unfold queueTransition
  split
  · next h => simp [h]
  · next h => simp

theorem playLoop_zero (t : TickValues) (v : ChannelValues) (idx : BitVec 10) (c : Channel) :
    playLoop t v 0 idx c = (c, []) := rfl

theorem playLoop_empty (t : TickValues) (v : ChannelValues) (n : Nat) (idx : BitVec 10) {c : Channel}
    (h : c.dacnt = 0) : playLoop t v n idx c = (c, silence t n) := by
  cases n with
  | zero => simp [playLoop, silence]
  | succ n =>
    unfold playLoop
    rw [if_pos h]

/-- One sample played while the count is above 0. -/
theorem playLoop_succ (t : TickValues) (v : ChannelValues) (n : Nat) (idx : BitVec 10) {c : Channel}
    (h : c.dacnt ≠ 0) :
    playLoop t v (n + 1) idx c =
      ((playLoop t v n (queueTransition idx (advanceDirect v.incDa c)).1
          (queueTransition idx (advanceDirect v.incDa c)).2).1,
        emit t v (center (memRead c.daq idx.toNat)) ++
          (playLoop t v n (queueTransition idx (advanceDirect v.incDa c)).1
            (queueTransition idx (advanceDirect v.incDa c)).2).2) := by
  conv_lhs => unfold playLoop
  rw [if_neg h]

theorem playLoop_length (t : TickValues) (v : ChannelValues) (n : Nat) (idx : BitVec 10) (c : Channel) :
    (playLoop t v n idx c).2.length = n * slotsOf t.stereo := by
  induction n generalizing idx c with
  | zero => simp [playLoop_zero]
  | succ n ih =>
    by_cases h : c.dacnt = 0
    · simp [playLoop_empty t v _ idx h]
    · rw [playLoop_succ t v n idx h]
      simp only [List.length_append, emit_length, ih]
      ring

/-- Every outcome of selection fills `N × SLOTS` scratch cells (45_balance_mixer.md rule R175). -/
theorem runGenerator_length (t : TickValues) (v : ChannelValues) (c : Channel) :
    (runGenerator t v c).2.length = t.cells := by
  unfold runGenerator TickValues.cells
  split
  · simp
  · simp
  · unfold directGenerator
    split
    · simp
    · exact playLoop_length t v t.n _ c
  · exact sampleLoop_length (fun c => by simp [noiseSample]) t.n c
  · exact sampleLoop_length (fun c => by simp [toneSample]) t.n c

/-! ### What a generator leaves alone -/

/-- The elements no generator writes: registers but `WIDX`, the table, the queue's cells and its write pointer. -/
abbrev sameHostSide (c d : Channel) : Prop :=
  d.freqLo = c.freqLo ∧ d.freqHi = c.freqHi ∧ d.ctrl = c.ctrl ∧ d.bal = c.bal ∧ d.noise = c.noise
    ∧ d.wave = c.wave ∧ d.daq = c.daq ∧ d.dawr = c.dawr

theorem toneSample_keeps (t : TickValues) (v : ChannelValues) (c : Channel) :
    sameHostSide c (toneSample t v c).1 ∧ (toneSample t v c).1.dacnt = c.dacnt
      ∧ (toneSample t v c).1.daphase = c.daphase ∧ (toneSample t v c).1.noiseK = c.noiseK
      ∧ (toneSample t v c).1.lfsr = c.lfsr ∧ (toneSample t v c).1.nlevel = c.nlevel := by
  simp [toneSample, sameHostSide]

theorem lfsrStep_keeps (tap : Word) (c : Channel) :
    sameHostSide c (lfsrStep tap c) ∧ (lfsrStep tap c).widx = c.widx ∧ (lfsrStep tap c).dacnt = c.dacnt
      ∧ (lfsrStep tap c).wphase = c.wphase ∧ (lfsrStep tap c).daphase = c.daphase
      ∧ (lfsrStep tap c).noiseK = c.noiseK := by
  unfold lfsrStep
  split <;> simp [sameHostSide]

theorem noiseDivider_keeps (t : TickValues) (ninc : Nat) (c : Channel) :
    sameHostSide c (noiseDivider t ninc c) ∧ (noiseDivider t ninc c).widx = c.widx
      ∧ (noiseDivider t ninc c).dacnt = c.dacnt ∧ (noiseDivider t ninc c).wphase = c.wphase
      ∧ (noiseDivider t ninc c).daphase = c.daphase := by
  unfold noiseDivider
  dsimp only
  split
  · have h := lfsrStep_keeps t.cfg.noiseTap
      { c with noiseK := BitVec.ofNat 32 ((c.noiseK.toNat + ninc) % 2 ^ 32
        - t.rate * ((c.noiseK.toNat + ninc) % 2 ^ 32 / t.rate)) }
    exact ⟨h.1, h.2.1, h.2.2.1, h.2.2.2.1, h.2.2.2.2.1⟩
  · simp [sameHostSide]

theorem queueTransition_keeps (idx : BitVec 10) (c : Channel) :
    sameHostSide c (queueTransition idx c).2 ∧ (queueTransition idx c).2.widx = c.widx
      ∧ (queueTransition idx c).2.wphase = c.wphase ∧ (queueTransition idx c).2.daphase = c.daphase
      ∧ (queueTransition idx c).2.noiseK = c.noiseK ∧ (queueTransition idx c).2.lfsr = c.lfsr
      ∧ (queueTransition idx c).2.nlevel = c.nlevel := by
  rw [queueTransition_eq]
  dsimp only
  split <;> simp [sameHostSide]

theorem playLoop_keeps (t : TickValues) (v : ChannelValues) (n : Nat) (idx : BitVec 10) (c : Channel) :
    sameHostSide c (playLoop t v n idx c).1 ∧ (playLoop t v n idx c).1.widx = c.widx
      ∧ (playLoop t v n idx c).1.wphase = c.wphase ∧ (playLoop t v n idx c).1.noiseK = c.noiseK
      ∧ (playLoop t v n idx c).1.lfsr = c.lfsr ∧ (playLoop t v n idx c).1.nlevel = c.nlevel := by
  induction n generalizing idx c with
  | zero => simp [playLoop_zero, sameHostSide]
  | succ n ih =>
    by_cases h : c.dacnt = 0
    · simp [playLoop_empty t v _ idx h, sameHostSide]
    · rw [playLoop_succ t v n idx h]
      have hq := queueTransition_keeps idx (advanceDirect v.incDa c)
      have hi := ih (queueTransition idx (advanceDirect v.incDa c)).1
        (queueTransition idx (advanceDirect v.incDa c)).2
      simp only [advanceDirect_freqLo, advanceDirect_freqHi, advanceDirect_ctrl, advanceDirect_bal,
        advanceDirect_noise, advanceDirect_wave, advanceDirect_daq, advanceDirect_dawr, advanceDirect_widx,
        advanceDirect_wphase, advanceDirect_noiseK, advanceDirect_lfsr, advanceDirect_nlevel, sameHostSide] at hq hi ⊢
      simp only [hi, hq, and_self]

/-- No generator writes the host's side of a channel (10_state.md rule R31). -/
theorem runGenerator_keeps (t : TickValues) (v : ChannelValues) (c : Channel) :
    sameHostSide c (runGenerator t v c).1 := by
  unfold runGenerator
  split
  · simp [sameHostSide]
  · simp [sameHostSide]
  · unfold directGenerator
    split
    · simp [sameHostSide]
    · exact (playLoop_keeps t v t.n _ c).1
  · refine sampleLoop_keeps (P := fun d => sameHostSide c d) (fun d hd => ?_) t.n c (by simp [sameHostSide])
    have h := (noiseDivider_keeps t v.ninc d).1
    simp only [noiseSample, sameHostSide] at h hd ⊢
    simp only [h, hd, and_self]
  · refine sampleLoop_keeps (P := fun d => sameHostSide c d) (fun d hd => ?_) t.n c (by simp [sameHostSide])
    have h := (toneSample_keeps t v d).1
    simp only [sameHostSide] at h hd ⊢
    simp only [h, hd, and_self]

/-! ### The channels of a tick -/

theorem mixCells_length (t : TickValues) (i : Nat) (bs : List Byte) (ds : List Sample) :
    (mixCells t i bs ds).length = ds.length := by
  induction bs generalizing i ds with
  | nil => cases ds <;> rfl
  | cons b bs ih =>
    cases ds with
    | nil => rfl
    | cons d ds => simp [mixCells, ih]

theorem generate_eq (t : TickValues) (v : ChannelValues) (ch : Chan) (chip : Chip) :
    generate t v ch chip =
      { chip.setChan ch (runGenerator t v (chip.chan ch)).1 with
        scr := (runGenerator t v (chip.chan ch)).2 ++ chip.scr.drop (runGenerator t v (chip.chan ch)).2.length } := rfl

@[simp] theorem generate_gvol (t : TickValues) (v : ChannelValues) (ch : Chan) (chip : Chip) :
    (generate t v ch chip).gvol = chip.gvol := rfl
@[simp] theorem generate_stereo (t : TickValues) (v : ChannelValues) (ch : Chan) (chip : Chip) :
    (generate t v ch chip).stereo = chip.stereo := rfl
@[simp] theorem generate_rate (t : TickValues) (v : ChannelValues) (ch : Chan) (chip : Chip) :
    (generate t v ch chip).rate = chip.rate := rfl
@[simp] theorem generate_dest (t : TickValues) (v : ChannelValues) (ch : Chan) (chip : Chip) :
    (generate t v ch chip).dest = chip.dest := rfl
theorem generate_chan (t : TickValues) (v : ChannelValues) (ch ch' : Chan) (chip : Chip) :
    (generate t v ch chip).chan ch' = if ch' = ch then (runGenerator t v (chip.chan ch)).1 else chip.chan ch' :=
  chan_setChan chip ch ch' _
/-- The mixer sees exactly the cells the generator wrote (45_balance_mixer.md rule R175). -/
theorem generate_scr_take (t : TickValues) (v : ChannelValues) (ch : Chan) (chip : Chip) :
    (generate t v ch chip).scr.take t.cells = (runGenerator t v (chip.chan ch)).2 := by
  have h := runGenerator_length t v (chip.chan ch)
  simp [generate_eq, ← h]

@[simp] theorem mix_chan (t : TickValues) (chip : Chip) (ch : Chan) : (mix t chip).chan ch = chip.chan ch := rfl
@[simp] theorem zeroFill_chan (t : TickValues) (chip : Chip) (ch : Chan) :
    (zeroFill t chip).chan ch = chip.chan ch := rfl

/-- One channel's turn: its generator moves it on, the mixer adds its cells, nothing else changes but `SCR`. -/
theorem tickChannel_chan (t : TickValues) (start chip : Chip) (ch ch' : Chan) :
    (tickChannel t start chip ch).chan ch' =
      if ch' = ch then (runGenerator t (channelValues t start.gvol ch (start.chan ch)) (chip.chan ch)).1
      else chip.chan ch' := by
  unfold tickChannel
  rw [mix_chan, generate_chan]

theorem tickChannel_dest (t : TickValues) (start chip : Chip) (ch : Chan) :
    (tickChannel t start chip ch).dest =
      mixCells t 0 (runGenerator t (channelValues t start.gvol ch (start.chan ch)) (chip.chan ch)).2 chip.dest := by
  unfold tickChannel
  rw [mix_dest, generate_scr_take, generate_dest]

@[simp] theorem tickChannel_gvol (t : TickValues) (start chip : Chip) (ch : Chan) :
    (tickChannel t start chip ch).gvol = chip.gvol := rfl
@[simp] theorem tickChannel_stereo (t : TickValues) (start chip : Chip) (ch : Chan) :
    (tickChannel t start chip ch).stereo = chip.stereo := rfl
@[simp] theorem tickChannel_rate (t : TickValues) (start chip : Chip) (ch : Chan) :
    (tickChannel t start chip ch).rate = chip.rate := rfl

/-- What each channel's turn keeps, the six turns keep. -/
theorem tickChannels_keeps {t : TickValues} {start : Chip} {P : Chip → Prop}
    (h0 : P (zeroFill t start)) (hs : ∀ chip ch, P chip → P (tickChannel t start chip ch)) (order : List Chan) :
    P (tickChannels t start order) := by
  have : ∀ (order : List Chan) (chip : Chip), P chip → P (order.foldl (tickChannel t start) chip) := by
    intro order
    induction order with
    | nil => exact fun chip h => h
    | cons ch rest ih => exact fun chip h => ih _ (hs chip ch h)
  exact this order _ h0

theorem forgetUnspecified_zero {t : TickValues} (h : t.n = 0) (chip : Chip) : forgetUnspecified t chip = chip := by
  simp [forgetUnspecified, h]

@[simp] theorem forgetUnspecified_chan (t : TickValues) (chip : Chip) (ch : Chan) :
    (forgetUnspecified t chip).chan ch = chip.chan ch := by
  unfold forgetUnspecified
  split <;> rfl

theorem forgetUnspecified_scr (t : TickValues) (chip : Chip) :
    (forgetUnspecified t chip).scr = if t.n = 0 then chip.scr else [] := by
  unfold forgetUnspecified
  split <;> rfl

theorem forgetUnspecified_dest (t : TickValues) (chip : Chip) :
    (forgetUnspecified t chip).dest = if t.n = 0 then chip.dest else chip.dest.take t.cells := by
  unfold forgetUnspecified
  split <;> rfl

/-- The cells a tick wrote are those it delivers, whatever else the destination buffer held. -/
@[simp] theorem forgetUnspecified_dest_take (t : TickValues) (chip : Chip) :
    (forgetUnspecified t chip).dest.take t.cells = chip.dest.take t.cells := by
  rw [forgetUnspecified_dest]
  split <;> simp

@[simp] theorem forgetUnspecified_gvol (t : TickValues) (chip : Chip) : (forgetUnspecified t chip).gvol = chip.gvol := by
  unfold forgetUnspecified
  split <;> rfl

@[simp] theorem forgetUnspecified_stereo (t : TickValues) (chip : Chip) : (forgetUnspecified t chip).stereo = chip.stereo := by
  unfold forgetUnspecified
  split <;> rfl

@[simp] theorem forgetUnspecified_rate (t : TickValues) (chip : Chip) : (forgetUnspecified t chip).rate = chip.rate := by
  unfold forgetUnspecified
  split <;> rfl

/-- Channel `ch` after the turns of a list of distinct channels. -/
theorem tickChannels_chan (t : TickValues) (start : Chip) {order : List Chan} (hn : order.Nodup) (ch : Chan) :
    (tickChannels t start order).chan ch =
      if ch ∈ order then (runGenerator t (channelValues t start.gvol ch (start.chan ch)) (start.chan ch)).1
      else start.chan ch := by
  have key : ∀ (order : List Chan) (chip : Chip), order.Nodup →
      (order.foldl (tickChannel t start) chip).chan ch =
        if ch ∈ order then (runGenerator t (channelValues t start.gvol ch (start.chan ch)) (chip.chan ch)).1
        else chip.chan ch := by
    intro order
    induction order with
    | nil => intro chip _; simp
    | cons a rest ih =>
      intro chip hn
      obtain ⟨ha, hr⟩ := List.nodup_cons.mp hn
      rw [List.foldl_cons, ih _ hr, tickChannel_chan]
      by_cases h : ch = a
      · subst h; simp [ha]
      · simp [h]
  exact key order _ hn

/-- A channel after a tick: its own generator ran on it, and nothing else (45_balance_mixer.md rule R181). -/
theorem tickChip_chan (cfg : Config) (n : Nat) (chip : Chip) (ch : Chan) :
    (tickChip cfg n chip).chan ch =
      (runGenerator (tickValues cfg n chip)
        (channelValues (tickValues cfg n chip) chip.gvol ch (chip.chan ch)) (chip.chan ch)).1 := by
  have hn : channelOrder.Nodup := by decide
  have hm : ch ∈ channelOrder := by revert ch; decide
  simp only [tickChip, forgetUnspecified_chan, tickChannels_chan _ _ hn, hm, if_true]

/-- What a tick delivers is what its channels accumulated. -/
theorem tickChip_dest_take (cfg : Config) (n : Nat) (chip : Chip) :
    (tickChip cfg n chip).dest.take (n * slotsOf chip.stereo) =
      (tickChannels (tickValues cfg n chip) chip channelOrder).dest.take (n * slotsOf chip.stereo) :=
  forgetUnspecified_dest_take (tickValues cfg n chip) _

/-- After a tick of at least one sample the destination buffer lists what was delivered, and no other cell. -/
theorem tickChip_dest_pos (cfg : Config) {n : Nat} (h : n ≠ 0) (chip : Chip) :
    (tickChip cfg n chip).dest = (tickChip cfg n chip).dest.take (n * slotsOf chip.stereo) := by
  rw [tickChip_dest_take]
  exact (forgetUnspecified_dest _ _).trans (if_neg h)

/-- TICK executes, or raises one of its faults, or stops on parameters rule R4 excludes. -/
theorem execTick_cases (imm : BitVec 24) (s : State) :
    (s.lc = .off ∧ execTick imm s = raise .notRunning s) ∨
    (s.lc = .run ∧ s.chip.rate = 0 ∧ execTick imm s = raise .rateNotConfigured s) ∨
    (s.lc = .run ∧ s.chip.rate ≠ 0 ∧ s.cfg.bufCap < imm.toNat * slotsOf s.chip.stereo ∧
      execTick imm s = raise .bufferTooSmall s) ∨
    (s.lc = .run ∧ s.chip.rate ≠ 0 ∧ imm.toNat * slotsOf s.chip.stereo ≤ s.cfg.bufCap ∧ s.cfg.lawful = false ∧
      execTick imm s = .fault .parametersOutOfRange) ∨
    (s.lc = .run ∧ s.chip.rate ≠ 0 ∧ imm.toNat * slotsOf s.chip.stereo ≤ s.cfg.bufCap ∧ s.cfg.lawful = true ∧
      execTick imm s = .next { answer 0 s with
        chip := tickChip s.cfg imm.toNat s.chip
        sampleOut := (tickChip s.cfg imm.toNat s.chip).dest.take (imm.toNat * slotsOf s.chip.stereo) }) := by
  cases hl : s.lc with
  | off => exact .inl ⟨rfl, whileRunning_off hl _⟩
  | run =>
    refine .inr ?_
    unfold execTick
    rw [whileRunning_run hl]
    by_cases hr : s.chip.rate = 0
    · exact .inl ⟨rfl, hr, by rw [if_pos hr]⟩
    · rw [if_neg hr]
      refine .inr ?_
      by_cases hb : s.cfg.bufCap < imm.toNat * slotsOf s.chip.stereo
      · exact .inl ⟨rfl, hr, hb, by rw [if_pos hb]⟩
      · rw [if_neg hb]
        refine .inr ?_
        have hb' : imm.toNat * slotsOf s.chip.stereo ≤ s.cfg.bufCap := by omega
        cases hc : s.cfg.lawful
        · exact .inl ⟨rfl, hr, hb', rfl, by rw [if_pos rfl]⟩
        · exact .inr ⟨rfl, hr, hb', rfl, by rw [if_neg (by simp)]⟩

end Sys2Proof.Machine
end

