-- ==== Sys2Proof/Laws/Exec.lean ====
section
/-! SUPPORT. What `exec` and `step` can answer, said once for every command: a proof over all commands takes these
apart and never unfolds a meaning. -/

namespace Sys2Proof.Machine

/-- Taking a fault, in the terms of the statements. -/
theorem raise_faulted (f : FaultName) (s : State) : raise f s = .next (faulted (faultCode f) s) := by
  cases f <;> rfl

/-- What a command answers. -/
inductive ExecAnswer (i : Instr) (s : State) : Result → Prop
  | faulted (f : FaultName) : i ≠ .init → ExecAnswer i s (.next (Machine.faulted (faultCode f) s))
  | read (d : BitVec 16) :
      (i = .rdgvol ∨ i = .rdstat ∨ (∃ ch idx, i = .rdreg ch idx) ∨ (∃ ch idx, i = .rdwave ch idx)) →
      ExecAnswer i s (.next (answer d s))
  | init : i = .init → ExecAnswer i s (execInit s)
  | shutdown : i = .shutdown → s.lc = .run → ExecAnswer i s (.next (answer 0 { s with
      lc := .off, chip := Config.unspecifiedChip s.freeCount, freeCount := s.freeCount + 1 }))
  | cfgrate (imm : BitVec 24) : i = .cfgrate imm → s.lc = .run →
      ExecAnswer i s (.next (answer 0 { s with chip := { s.chip with rate := imm } }))
  | cfgstereo (imm : BitVec 24) (flag : Bool) : i = .cfgstereo imm → s.lc = .run →
      ExecAnswer i s (.next (answer 0 { s with chip := { s.chip with stereo := flag } }))
  | wrgvol (data : Byte) : i = .wrgvol data → s.lc = .run →
      ExecAnswer i s (.next (answer 0 { s with chip := { s.chip with gvol := data } }))
  | wrreg (ch : BitVec 3) (idx data : Byte) (c : Chan) (r : RegName) : i = .wrreg ch idx data → s.lc = .run →
      ExecAnswer i s (.next (answer 0 (updateChannel s c fun x => x.writeReg r data)))
  | wrwave (ch : BitVec 3) (idx data : Byte) (c : Chan) (k : Fin 32) : i = .wrwave ch idx data → s.lc = .run →
      ExecAnswer i s
        (.next (answer 0 (updateChannel s c fun x => { x with wave := memWrite x.wave k (cellData data) })))
  | pushda (ch : BitVec 3) (data : Byte) (c : Chan) : i = .pushda ch data → s.lc = .run →
      (s.chip.chan c).dacnt ≠ 1024 → ExecAnswer i s (.next (answer 0 (updateChannel s c (queuePush (cellData data)))))
  | parameters (n : BitVec 24) : i = .tick n → s.cfg.lawful = false → ExecAnswer i s (.fault .parametersOutOfRange)
  | tick (n : BitVec 24) : i = .tick n → s.lc = .run → s.chip.rate ≠ 0 →
      n.toNat * slotsOf s.chip.stereo ≤ s.cfg.bufCap → s.cfg.lawful = true →
      ExecAnswer i s (.next { answer 0 s with
        chip := tickChip s.cfg n.toNat s.chip
        sampleOut := (tickChip s.cfg n.toNat s.chip).dest.take (n.toNat * slotsOf s.chip.stereo) })

theorem ExecAnswer.withOperand {α : Type} {i : Instr} (hi : i ≠ .init) {s : State} (o : Option α) {k : α → Result}
    (h : ∀ a, o = some a → ExecAnswer i s (k a)) : ExecAnswer i s (Machine.withOperand o s k) := by
  rcases withOperand_cases o s k with ⟨a, ha, e⟩ | ⟨-, e⟩
  · rw [e]; exact h a ha
  · rw [e, raise_faulted]; exact .faulted _ hi

theorem ExecAnswer.whileRunning {i : Instr} (hi : i ≠ .init) {s : State} {k : Result}
    (h : s.lc = .run → ExecAnswer i s k) : ExecAnswer i s (Machine.whileRunning s k) := by
  rcases whileRunning_cases s k with ⟨a, e⟩ | ⟨-, e⟩
  · rw [e]; exact h a
  · rw [e, raise_faulted]; exact .faulted _ hi

/-- Every command answers as `ExecAnswer` says. -/
theorem exec_answer (i : Instr) (s : State) : ExecAnswer i s (exec i s) := by
  cases i with
  | init => exact .init rfl
  | shutdown => exact .whileRunning (by simp) fun h => .shutdown rfl h
  | cfgrate imm => exact .whileRunning (by simp) fun h => .cfgrate imm rfl h
  | cfgstereo imm => exact .withOperand (by simp) _ fun b _ => .whileRunning (by simp) fun h => .cfgstereo imm b rfl h
  | wrgvol d => exact .whileRunning (by simp) fun h => .wrgvol d rfl h
  | wrreg ch idx d =>
    exact .withOperand (by simp) _ fun c _ => .withOperand (by simp) _ fun r _ =>
      .whileRunning (by simp) fun h => .wrreg ch idx d c r rfl h
  | wrwave ch idx d =>
    exact .withOperand (by simp) _ fun c _ => .withOperand (by simp) _ fun k _ =>
      .whileRunning (by simp) fun h => .wrwave ch idx d c k rfl h
  | pushda ch d =>
    refine .withOperand (by simp) _ fun c _ => .whileRunning (by simp) fun h => ?_
    by_cases hf : (s.chip.chan c).dacnt = 1024
    · rw [if_pos hf, raise_faulted]; exact .faulted _ (by simp)
    · rw [if_neg hf]; exact .pushda ch d c rfl h hf
  | tick n =>
    show ExecAnswer _ _ (execTick n s)
    rcases execTick_cases n s with ⟨h, e⟩ | ⟨h, h2, e⟩ | ⟨h, h2, h3, e⟩ | ⟨h, h2, h3, h4, e⟩ | ⟨h, h2, h3, h4, e⟩ <;>
      rw [e]
    · rw [raise_faulted]; exact .faulted _ (by simp)
    · rw [raise_faulted]; exact .faulted _ (by simp)
    · rw [raise_faulted]; exact .faulted _ (by simp)
    · exact .parameters n rfl h4
    · exact .tick n rfl h h2 h3 h4
  | rdgvol => exact .whileRunning (by simp) fun _ => .read _ (by simp)
  | rdreg ch idx =>
    exact .withOperand (by simp) _ fun c _ => .withOperand (by simp) _ fun e _ =>
      .whileRunning (by simp) fun _ => .read _ (by simp)
  | rdwave ch idx =>
    exact .withOperand (by simp) _ fun c _ => .withOperand (by simp) _ fun k _ =>
      .whileRunning (by simp) fun _ => .read _ (by simp)
  | rdstat => exact .read _ (by simp)

/-- A step is idle, or an illegal word's fault, or the oldest word's command. -/
theorem step_cases (s : State) :
    (s.cmdIn = [] ∧ step s = .next s)
    ∨ ∃ w rest, s.cmdIn = w :: rest ∧
      ((decode w = none ∧ step s = raise .illegalCommand { s with cmdIn := rest })
        ∨ ∃ i, decode w = some i ∧ step s = exec i { s with cmdIn := rest }) := by
  cases h : s.cmdIn with
  | nil => exact .inl ⟨rfl, by simp [step, takeWord, h]⟩
  | cons w rest =>
    refine .inr ⟨w, rest, rfl, ?_⟩
    cases hd : decode w with
    | none => exact .inl ⟨rfl, by simp [step, takeWord, h, acceptWord, hd]⟩
    | some i => exact .inr ⟨i, rfl, by simp [step, takeWord, h, acceptWord, hd]⟩

end Sys2Proof.Machine
end

