-- ==== Sys2Proof/Laws/PerInstr.lean ====
section
/-! SUPPORT. Per command: the opcode field of its word is its opcode, which is neither 0x0 nor above 0xD
(30_encoding.md rules R61, R63, R66). -/

/-- The opcode of a command stands in bits 31:28 of its word and is one of the thirteen legal ones. -/
def Sys2Proof.Laws.EncodedOpcode.Statement (i : Sys2Proof.Instr) : Prop :=
  Sys2Proof.fieldOp (Sys2Proof.encode i) = Sys2Proof.opcodeOf i
    ∧ 1 ≤ (Sys2Proof.opcodeOf i).toNat ∧ (Sys2Proof.opcodeOf i).toNat ≤ 13

namespace Sys2Proof.Laws.EncodedOpcode

/-- Every opcode is one of the thirteen. -/
theorem opcode_range (i : Instr) : 1 ≤ (opcodeOf i).toNat ∧ (opcodeOf i).toNat ≤ 13 := by
  cases i <;> exact ⟨Nat.le_of_ble_eq_true rfl, Nat.le_of_ble_eq_true rfl⟩

theorem init : Statement .init := ⟨(formatZ_fields _).1, opcode_range _⟩

theorem shutdown : Statement .shutdown := ⟨(formatZ_fields _).1, opcode_range _⟩

theorem cfgrate (imm : BitVec 24) : Statement (.cfgrate imm) := ⟨(formatI_fields _ _).1, opcode_range _⟩

theorem cfgstereo (imm : BitVec 24) : Statement (.cfgstereo imm) := ⟨(formatI_fields _ _).1, opcode_range _⟩

theorem wrgvol (data : Byte) : Statement (.wrgvol data) := ⟨(formatR_fields _ _ _ _).1, opcode_range _⟩

theorem wrreg (ch : BitVec 3) (idx data : Byte) : Statement (.wrreg ch idx data) :=
  ⟨(formatR_fields _ _ _ _).1, opcode_range _⟩

theorem wrwave (ch : BitVec 3) (idx data : Byte) : Statement (.wrwave ch idx data) :=
  ⟨(formatR_fields _ _ _ _).1, opcode_range _⟩

theorem pushda (ch : BitVec 3) (data : Byte) : Statement (.pushda ch data) :=
  ⟨(formatR_fields _ _ _ _).1, opcode_range _⟩

theorem tick (imm : BitVec 24) : Statement (.tick imm) := ⟨(formatI_fields _ _).1, opcode_range _⟩

theorem rdgvol : Statement .rdgvol := ⟨(formatZ_fields _).1, opcode_range _⟩

theorem rdreg (ch : BitVec 3) (idx : Byte) : Statement (.rdreg ch idx) :=
  ⟨(formatR_fields _ _ _ _).1, opcode_range _⟩

theorem rdwave (ch : BitVec 3) (idx : Byte) : Statement (.rdwave ch idx) :=
  ⟨(formatR_fields _ _ _ _).1, opcode_range _⟩

theorem rdstat : Statement .rdstat := ⟨(formatZ_fields _).1, opcode_range _⟩

end Sys2Proof.Laws.EncodedOpcode
end

