-- ==== Sys2Proof/Tests/Slice0.lean ====
section
/-! SUPPORT. Tests of the model against the spec's own examples and vectors (95_test_vectors.md, 30_encoding.md), and for
every obligation with hypotheses a witness that meets them. -/

namespace Sys2Proof.Tests

open Sys2Proof Sys2Proof.Machine

/-! ### Small states -/

/-- After INIT; CFGRATE 44100; WRGVOL 0xFF, with parameters P0. -/
def running : State := { State.reset with chip := { State.reset.chip with rate := 44100, gvol := 0xFF } }

/-- The same with one channel replaced. -/
def withChannel (ch : Chan) (c : Channel) : State := { running with chip := running.chip.setChan ch c }

/-- The same in stereo. -/
def inStereo (s : State) : State := { s with chip := { s.chip with stereo := true } }

/-- The block switched off. -/
def off : State := { State.reset with lc := .off }

/-- A channel as INIT leaves it, with seed 1. -/
def plain : Channel := resetChannel 1 .plus

/-- The ramp 0, 1, …, 31. -/
def ramp : Memory := (List.range 31).map fun i => (i + 1, BitVec.ofNat 5 (i + 1))

/-- Channel 0 of program P1: period 16, balance 0xF8, on at volume 31, ramp. -/
def toneChannel : Channel := { plain with freqLo := 16, bal := 0xF8, ctrl := 0x9F, wave := ramp }

/-- Channel 3 of vector DA3. -/
def directChannel : Channel :=
  { plain with
    freqLo := 1, bal := 0xFF, ctrl := 0x9F, daphase := 0x3FFF000, dawr := 1, dacnt := 2, daq := [(0, 10), (1023, 20)] }

/-- Channel 5 of program P3. -/
def noiseChannel : Channel := { plain with bal := 0xFF, noise := 0x9F, ctrl := 0x9F, lfsr := 0x00040001 }

def toneState : State := withChannel 0 toneChannel
def directState : State := withChannel 3 directChannel
def noiseState : State := withChannel 5 noiseChannel

/-- A state with one word on the command port. -/
def issued (w : Word) (s : State) : State := { s with cmdIn := [w] }

/-- What a function reads from the next state of an outcome. -/
def after {α : Type} (r : Result) (f : State → α) : Option α :=
  match r with
  | .next t => some (f t)
  | .fault _ => none
  | .refused _ => none

/-! ### WellFormed: a term each check refuses, and the nearest it accepts -/

theorem test_wellFormed_cfgstereo : Instr.wellFormed (.cfgstereo 2) = false ∧ Instr.wellFormed (.cfgstereo 1) = true := by
  decide
theorem test_wellFormed_wrreg :
    Instr.wellFormed (.wrreg 6 0 0) = false ∧ Instr.wellFormed (.wrreg 0 6 0) = false
      ∧ Instr.wellFormed (.wrreg 5 5 255) = true := by decide
theorem test_wellFormed_wrwave :
    Instr.wellFormed (.wrwave 7 0 0) = false ∧ Instr.wellFormed (.wrwave 0 32 0) = false
      ∧ Instr.wellFormed (.wrwave 5 31 255) = true := by decide
theorem test_wellFormed_pushda : Instr.wellFormed (.pushda 6 0) = false ∧ Instr.wellFormed (.pushda 5 0) = true := by
  decide
theorem test_wellFormed_rdreg :
    Instr.wellFormed (.rdreg 6 0) = false ∧ Instr.wellFormed (.rdreg 0 7) = false
      ∧ Instr.wellFormed (.rdreg 5 6) = true := by decide
theorem test_wellFormed_rdwave :
    Instr.wellFormed (.rdwave 6 0) = false ∧ Instr.wellFormed (.rdwave 0 32) = false
      ∧ Instr.wellFormed (.rdwave 5 31) = true := by decide

/-! ### Decoding: the words of 95_test_vectors.md section 2.1 (E1 to E26), bit by bit where the format has fields -/

theorem test_decode_init : decode 0x10000000#32 = some .init ∧ decode 0x10000001#32 = none := by decide
theorem test_decode_shutdown : decode 0x20000000#32 = some .shutdown := by decide
theorem test_decode_cfgrate :
    decode 0b0011_0000_0000_0000_1010_1100_0100_0100#32 = some (.cfgrate 44100)
      ∧ decode 0x3000BB80#32 = some (.cfgrate 48000) := by decide
theorem test_decode_cfgstereo : decode 0x40000001#32 = some (.cfgstereo 1) ∧ decode 0x40000002#32 = none := by decide
theorem test_decode_wrgvol : decode 0x500000F3#32 = some (.wrgvol 0xF3) ∧ decode 0x50010000#32 = none := by decide
theorem test_decode_wrreg :
    decode 0b0110_0_101_00000100_00000000_10011111#32 = some (.wrreg 5 4 0x9F)
      ∧ decode 0x60050000#32 = some (.wrreg 0 5 0) ∧ decode 0x66000000#32 = none ∧ decode 0x60060000#32 = none
      ∧ decode 0x68000000#32 = none ∧ decode 0x60000100#32 = none := by decide
theorem test_decode_wrwave :
    decode 0b0111_0_000_00001010_00000000_00001010#32 = some (.wrwave 0 10 10)
      ∧ decode 0x701F0000#32 = some (.wrwave 0 31 0) ∧ decode 0x70200000#32 = none := by decide
theorem test_decode_pushda : decode 0x8100001F#32 = some (.pushda 1 31) ∧ decode 0x80010000#32 = none := by decide
theorem test_decode_tick : decode 0x900002DF#32 = some (.tick 735) := by decide
theorem test_decode_rdgvol : decode 0xA0000000#32 = some .rdgvol := by decide
theorem test_decode_rdreg :
    decode 0xB0050000#32 = some (.rdreg 0 5) ∧ decode 0xB0060000#32 = some (.rdreg 0 6)
      ∧ decode 0xB0070000#32 = none := by decide
theorem test_decode_rdwave : decode 0b1100_0_101_00011111_00000000_00000000#32 = some (.rdwave 5 31) := by decide
theorem test_decode_rdstat : decode 0xD0000000#32 = some .rdstat := by decide
theorem test_decode_illegal_opcodes :
    decode 0x00000000#32 = none ∧ decode 0xE0000000#32 = none ∧ decode 0xFFFFFFFF#32 = none := by decide
theorem test_tableWord_runs_first :
    decodeTableWord 32 0x6504009F = some (.wrreg 5 4 0x9F)
      ∧ step (State.reset.withFetchWord 32 0x6504009F) = exec (.wrreg 5 4 0x9F) State.reset := ⟨by decide, rfl⟩

/-! ### Assembling (30_encoding.md rules R67, R68) -/

theorem test_assemble_word : (assemble "WRREG 5, NOISE, 0x9F").map (·.map encode) = some [0x6504009F#32] := by
  decide +kernel
theorem test_assemble_pseudo :
    (assemble "WRCTRL 0, 1, 0, 31 ; on\nWRFREQ 0, 0xA55").map (·.map encode)
      = some [0x6002009F#32, 0x60000055#32, 0x6001000A#32] := by decide +kernel

/-! ### Tables and queues -/

theorem test_memory_write_then_remove :
    memWrite (memWrite [] 1023 7) 5 31 = [(5, 31), (1023, 7)] ∧ memWrite [(5, 31), (1023, 7)] 5 0 = [(1023, 7)]
      ∧ memRead [(5, 31), (1023, 7)] 6 = 0 ∧ memRead [(5, 31), (1023, 7)] 1023 = 7 := by decide
theorem test_memory_wf :
    Memory.wf 1024 [(5, 31), (1023, 7)] = true ∧ Memory.wf 32 [(32, 1)] = false ∧ Memory.wf 32 [(3, 0)] = false
      ∧ Memory.wf 32 [(3, 1), (3, 2)] = false := by decide

/-! ### Numbers of 95_test_vectors.md sections 2.3 to 2.7 -/

theorem test_increments :
    incW vectorParameters 44100 254 = 20899 ∧ incDa vectorParameters 44100 = 10388
      ∧ ratio16 vectorParameters 54 = 0x02EF0000 ∧ incDa vectorParameters 7004 = 65536 := by decide
/-- PH1, PH3, PH4. -/
theorem test_phase_wraps :
    wavePhaseAfter 0x51000 0x1E6000#32 = 0x037000#32 ∧ wavePhaseAfter 1296 0x1FFFFF#32 = 0x00050F#32
      ∧ directPhaseAfter 10388 0x3FFF000#32 = 0x0001894#32 := by decide
theorem test_center : center 0 = -16 ∧ center 15 = -1 ∧ center 16 = 1 ∧ center 31 = 16 := by decide
theorem test_balance :
    sideBalance vectorParameters 15 31 = 511 ∧ sideBalance vectorParameters 8 31 = 272
      ∧ sideBalance vectorParameters 3 7 = 23 := by decide
theorem test_scaledCell :
    scaledCell .trunc (-16) 511 = 0x81 ∧ scaledCell .floor (-16) 511 = 0x80 ∧ scaledCell .trunc (-1) 63 = 0x00
      ∧ scaledCell .floor (-11) 391 = 0xBC := by decide
/-- N1, N2. -/
theorem test_lfsrStep :
    (lfsrStep 4 { plain with lfsr := 0x00040001 }).lfsr = 0x00080002
      ∧ (lfsrStep 4 { plain with lfsr := 0x00080002 }).lfsr = 0x0010000D
      ∧ (lfsrStep 4 { plain with lfsr := 0x00080002 }).nlevel = .minus := by decide
/-- NV7. -/
theorem test_noiseVolume :
    noiseVolume 0x3C { plain with ctrl := 0x9F, bal := 0xA2 } = 75
      ∧ tableVolume vectorParameters 0x3C { plain with ctrl := 0x9F, bal := 0xA2 } = 9 := by decide
/-- N6: at 8000 Hz several noise ticks fall in one sample and only one step happens. -/
theorem test_noiseDivider :
    (noiseDivider { tickValues vectorParameters 4 running.chip with rate := 8000 } 18872 plain).noiseK = 2872
      ∧ (noiseDivider { tickValues vectorParameters 4 running.chip with rate := 8000 } 18872 plain).lfsr = 2 := by decide
/-- SEL3, SEL5, SEL6, SEL8. -/
theorem test_selectGenerator :
    selectGenerator 2 { plain with ctrl := 0x1F, dacnt := 7 } = .off
      ∧ selectGenerator 2 { plain with ctrl := 0x9F, dacnt := 1, freqLo := 100 } = .directAudio
      ∧ selectGenerator 5 { plain with ctrl := 0x9F, noise := 0x80, freqLo := 100 } = .noise
      ∧ selectGenerator 3 { plain with ctrl := 0x9F, noise := 0x80, freqLo := 100 } = .tone := by decide

/-- 20_memory.md rule R51: after a tick of two samples no cell of an earlier, longer tick has a specified value, and a
tick of no samples changes nothing. -/
theorem test_dest_above_is_unspecified :
    (tickChip vectorParameters 2 { running.chip with dest := [7, 7, 7, 7, 7] }).dest = [0, 0]
      ∧ (tickChip vectorParameters 0 { running.chip with dest := [7, 7, 7, 7, 7] }).dest = [7, 7, 7, 7, 7] := by decide

/-- Section 2.6: the output values at TV = 31 and 75, both roundings. -/
theorem test_idiv :
    idiv .trunc (-7020 * 31) 4096 = -53 ∧ idiv .floor (-7020 * 31) 4096 = -54 ∧ idiv .floor (7020 * 75) 4096 = 128 := by
  decide
/-- M2: the two readings of the cell 0x81 at gain 15. -/
theorem test_readScratch : readScratch .unsigned 0x81 * 15 = 1935 ∧ readScratch .signed 0x81 * 15 = -1905 := by decide

/-! ### One step of each command (95_test_vectors.md sections 2.2, 2.8 and 3) -/

/-- L12. -/
theorem test_init :
    after (exec .init { off with fault := 3 }) (fun t => (t.lc, t.fault, (t.chip.chan 5).lfsr))
      = some (.run, 0, 0x51F631E9) := by decide
/-- L10. -/
theorem test_shutdown : after (exec .shutdown { running with fault := 3 }) (fun t => (t.lc, t.fault, t.resp))
    = some (.off, 3, 0) := by decide
theorem test_cfgrate : after (exec (.cfgrate 0) running) (·.chip.rate) = some 0 := by decide
theorem test_cfgstereo : after (exec (.cfgstereo 1) running) (·.chip.stereo) = some true := by decide
/-- B9. -/
theorem test_wrgvol_off : after (exec (.wrgvol 1) off) (fun t => (t.resp, t.fault, t.chip.gvol))
    = some (0x00020000, 2, 0) := by decide
/-- B2. -/
theorem test_wrreg_period :
    after (exec (.wrreg 3 1 0xFA) (withChannel 3 { plain with freqLo := 0x55 }))
      (fun t => ((t.chip.chan 3).freqHi, (t.chip.chan 3).period)) = some (0xFA, 2645) := by decide
/-- B8. -/
theorem test_wrreg_widx :
    after (exec (.wrreg 0 5 0x77) running) (fun t => ((t.chip.chan 0).widx, (t.chip.chan 0).wphase)) = some (0x77, 0) := by
  decide
/-- B3. -/
theorem test_wrwave : after (exec (.wrwave 0 5 0x25) running) (fun t => memRead (t.chip.chan 0).wave 5) = some 5 := by
  decide
/-- B7. -/
theorem test_pushda :
    after (exec (.pushda 2 7) (withChannel 2 { plain with dacnt := 1023, dawr := 1023 }))
      (fun t => (memRead (t.chip.chan 2).daq 1023, (t.chip.chan 2).dawr, (t.chip.chan 2).dacnt))
      = some (7, 0, 1024) := by decide
/-- L9. -/
theorem test_pushda_full :
    after (exec (.pushda 2 7) { withChannel 2 { plain with dacnt := 1024 } with fault := 3 })
      (fun t => (t.resp, t.fault)) = some (0x00050000, 3) := by decide
/-- Program P1. -/
theorem test_tick_tone :
    after (exec (.tick 8) (inStereo toneState))
      (fun t => (t.sampleOut.map BitVec.toNat, (t.chip.chan 0).wphase, (t.chip.chan 0).widx))
      = some ([1935, 2820, 2535, 3150, 3135, 3465, 3735, 3780, 585, 315, 1185, 630, 1785, 945, 2295, 3015],
          0x088000, 8) := by decide +kernel
/-- Vector DA3. -/
theorem test_tick_direct :
    after (exec (.tick 10) directState)
      (fun t => (t.sampleOut.map BitVec.toNat, (t.chip.chan 3).dacnt, (t.chip.chan 3).daphase))
      = some ([585, 3135, 3135, 3135, 3135, 3135, 3135, 0, 0, 0], 0, 0x0010C0C) := by decide +kernel
/-- B1. -/
theorem test_rdgvol : after (exec .rdgvol { running with chip := { running.chip with gvol := 0xF8 } }) (·.resp)
    = some 0x000000F8 := by decide
/-- B5. -/
theorem test_rdreg_count : after (exec (.rdreg 3 6) directState) (·.resp) = some 2 := by decide
/-- B10. -/
theorem test_rdreg_byte : after (exec (.rdreg 0 2) (withChannel 0 { plain with ctrl := 0xFF })) (·.resp)
    = some 0x000000FF := by decide
/-- B4. -/
theorem test_rdwave : after (exec (.rdwave 0 31) toneState) (·.resp) = some 0x0000001F := by decide
/-- L1, L3. -/
theorem test_rdstat : after (exec .rdstat off) (·.resp) = some 0 ∧ after (exec .rdstat State.reset) (·.resp) = some 1 := by
  decide
/-- L13. -/
theorem test_illegal_word : after (step (issued 0x00000000#32 off)) (fun t => (t.resp, t.fault)) = some (0x00010000, 1) := by
  decide

/-! ### Witnesses: for each obligation with hypotheses, states and operands that meet them, clause by clause -/

theorem witness_ShutdownLeavesOnlyFault : running.lc = .run ∧ off.lc = .off := by decide
theorem witness_CfgrateSetsOnlyRate : running.lc = .run ∧ off.lc = .off := by decide
theorem witness_CfgstereoSetsOnlyStereo :
    (BitVec.toNat 1#24 ≤ 1 ∧ running.lc = .run) ∧ (BitVec.toNat 0#24 ≤ 1 ∧ off.lc = .off) ∧ 1 < BitVec.toNat 2#24 := by
  decide
theorem witness_WrgvolSetsOnlyGlobalVolume : running.lc = .run ∧ off.lc = .off := by decide
theorem witness_WrregStoresWholeByte :
    (BitVec.toNat 5#3 = (5 : Chan).val ∧ BitVec.toNat 5#8 ≤ 5 ∧ running.lc = .run)
      ∧ (BitVec.toNat 5#3 ≤ 5 ∧ BitVec.toNat 0#8 ≤ 5 ∧ off.lc = .off)
      ∧ 5 < BitVec.toNat 6#3 ∧ 5 < BitVec.toNat 6#8 := by decide
theorem witness_WrwaveStoresLowFiveBits :
    (BitVec.toNat 0#3 = (0 : Chan).val ∧ BitVec.toNat 31#8 ≤ 31 ∧ toneState.lc = .run ∧ (toneState.chip.chan 0).inRange)
      ∧ (BitVec.toNat 5#3 ≤ 5 ∧ BitVec.toNat 31#8 ≤ 31 ∧ off.lc = .off)
      ∧ 5 < BitVec.toNat 6#3 ∧ 31 < BitVec.toNat 32#8 := by decide +kernel
/-- The count just below, and at, the limit. -/
theorem witness_PushdaAppendsOneCell :
    (∃ s : State, BitVec.toNat 2#3 = (2 : Chan).val ∧ s.lc = .run ∧ (s.chip.chan 2).inRange
        ∧ (s.chip.chan 2).dacnt = 1023 ∧ (s.chip.chan 2).dacnt ≠ 1024)
      ∧ (∃ s : State, BitVec.toNat 2#3 = (2 : Chan).val ∧ s.lc = .run ∧ (s.chip.chan 2).dacnt = 1024)
      ∧ (BitVec.toNat 5#3 ≤ 5 ∧ off.lc = .off) ∧ 5 < BitVec.toNat 6#3 :=
  ⟨⟨withChannel 2 { plain with dacnt := 1023 }, by decide⟩, ⟨withChannel 2 { plain with dacnt := 1024 }, by decide⟩,
    by decide, by decide⟩
theorem witness_RdgvolAnswersGlobalVolume : running.lc = .run ∧ off.lc = .off := by decide
theorem witness_RdregAnswersBankEntry :
    (∃ v : Nat, BitVec.toNat 3#3 = (3 : Chan).val ∧ directState.lc = .run ∧
        ((directState.chip.chan 3).bank.map BitVec.toNat ++ [(directState.chip.chan 3).dacnt.toNat])[BitVec.toNat 6#8]?
          = some v)
      ∧ (BitVec.toNat 5#3 ≤ 5 ∧ BitVec.toNat 6#8 ≤ 6 ∧ off.lc = .off)
      ∧ 5 < BitVec.toNat 6#3 ∧ 6 < BitVec.toNat 7#8 := ⟨⟨2, by decide⟩, by decide, by decide, by decide⟩
theorem witness_RdwaveAnswersTableCell :
    (BitVec.toNat 5#3 = (5 : Chan).val ∧ BitVec.toNat 31#8 ≤ 31 ∧ running.lc = .run)
      ∧ (BitVec.toNat 5#3 ≤ 5 ∧ BitVec.toNat 31#8 ≤ 31 ∧ off.lc = .off)
      ∧ 5 < BitVec.toNat 6#3 ∧ 31 < BitVec.toNat 32#8 := by decide
/-- An executed read, whose second run answers the same state. -/
theorem witness_ReadCommandsHaveNoSideEffect :
    ∃ t : State, exec .rdgvol running = .next t ∧ exec .rdgvol t = .next t ∧ t.resp.toNat < 2 ^ 16 :=
  ⟨_, rfl, rfl, by decide⟩
theorem witness_WrfreqSetsThePeriod : BitVec.toNat 5#3 = (5 : Chan).val ∧ 4095 ≤ 4095 ∧ running.lc = .run := by decide

/-- A tick that fills the buffer, and a tick of no samples. -/
theorem witness_TickCompletesAndDeliversItsSamples :
    running.tickReady 2048 ∧ (inStereo running).tickReady 1024 ∧ running.tickReady 0 := by decide
theorem witness_TickOfNoSamplesChangesNothing : toneState.tickReady 0 := by decide
theorem witness_TickLeavesHostSideAlone :
    (∃ t : State, directState.tickReady 10 ∧ exec (.tick 10) directState = .next t ∧ 0 < BitVec.toNat 10#24)
      ∧ ∃ t : State, directState.tickReady 0 ∧ exec (.tick 0) directState = .next t ∧ BitVec.toNat 0#24 = 0 :=
  ⟨⟨_, by decide, rfl, by decide⟩, _, by decide, rfl, by decide⟩
theorem witness_SelectionFollowsItsPriority :
    plain.ctrl.getLsbD 7 = false
      ∧ (directChannel.ctrl.getLsbD 7 = true ∧ 0 < directChannel.dacnt.toNat)
      ∧ (noiseChannel.ctrl.getLsbD 7 = true ∧ noiseChannel.ctrl.getLsbD 6 = false ∧ noiseChannel.dacnt = 0
        ∧ 4 ≤ (4 : Chan).val ∧ noiseChannel.noise.getLsbD 7 = true)
      ∧ (noiseChannel.ctrl.getLsbD 7 = true ∧ (3 : Chan).val < 4
        ∧ noiseChannel.freqHi.toNat % 16 * 256 + noiseChannel.freqLo.toNat = 0)
      ∧ (toneChannel.ctrl.getLsbD 7 = true ∧ toneChannel.ctrl.getLsbD 6 = false ∧ toneChannel.dacnt = 0
        ∧ toneChannel.noise.getLsbD 7 = false
        ∧ 0 < toneChannel.freqHi.toNat % 16 * 256 + toneChannel.freqLo.toNat) := by decide
/-- Channel 1 of the tone state is off; with ON set and T = 0 it is silent. -/
theorem witness_OffAndSilentChannelsStandStill :
    (∃ t : State, toneState.tickReady 2 ∧ exec (.tick 2) toneState = .next t
        ∧ selectGenerator 1 (toneState.chip.chan 1) = .off)
      ∧ ∃ s t : State, s.tickReady 2 ∧ exec (.tick 2) s = .next t ∧ selectGenerator 1 (s.chip.chan 1) = .silent :=
  ⟨⟨_, by decide, rfl, by decide⟩, withChannel 1 { plain with ctrl := 0x9F }, _, by decide, rfl, by decide⟩
theorem witness_ToneTickAdvancesWavePhase :
    ∃ t : State, toneState.tickReady 2 ∧ (toneState.chip.chan 0).inRange ∧ exec (.tick 2) toneState = .next t
      ∧ selectGenerator 0 (toneState.chip.chan 0) = .tone := ⟨_, by decide, by decide +kernel, rfl, by decide⟩
theorem witness_ToneCellsFollowTheTable :
    (toneState.chip.chan 0).inRange ∧ selectGenerator 0 (toneState.chip.chan 0) = .tone
      ∧ 7 < 8 * (if toneState.chip.stereo then 2 else 1) := by decide +kernel
/-- T = 0 with one push pending (DA2), and T = 5 with DDA set and nothing pending (DA1). -/
theorem witness_DirectAudioIsSilentAtZeroPeriodOrEmptyQueue :
    (∃ s t : State, s.tickReady 4 ∧ exec (.tick 4) s = .next t ∧ selectGenerator 0 (s.chip.chan 0) = .directAudio
        ∧ (s.chip.chan 0).freqHi.toNat % 16 * 256 + (s.chip.chan 0).freqLo.toNat = 0)
      ∧ ∃ s t : State, s.tickReady 4 ∧ exec (.tick 4) s = .next t ∧ selectGenerator 0 (s.chip.chan 0) = .directAudio
        ∧ 0 < (s.chip.chan 0).freqHi.toNat % 16 * 256 + (s.chip.chan 0).freqLo.toNat ∧ (s.chip.chan 0).dacnt = 0 :=
  ⟨⟨withChannel 0 { plain with ctrl := 0x9F, dacnt := 1 }, _, by decide, rfl, by decide, by decide⟩,
    withChannel 0 { plain with freqLo := 5, ctrl := 0xDF }, _, by decide, rfl, by decide, by decide, by decide⟩
/-- The seven samples of vector DA3: the count 2 is used up by the first and the seventh advance, and a tick of ten
samples is longer than that. -/
theorem witness_DirectAudioConsumesTheSlotsItCrosses :
    ∃ (t : State) (inc : Nat),
      inc = directState.cfg.clock / directState.chip.rate.toNat * 2 ^ 16 % 2 ^ 32 / directState.cfg.daDivisor
      ∧ directState.tickReady 10 ∧ (directState.chip.chan 3).inRange ∧ exec (.tick 10) directState = .next t
      ∧ selectGenerator 3 (directState.chip.chan 3) = .directAudio
      ∧ 0 < (directState.chip.chan 3).freqHi.toNat % 16 * 256 + (directState.chip.chan 3).freqLo.toNat
      ∧ inc ≤ 65536 ∧ slotsCrossed 0x3FFF000 inc 6 = 1 ∧ slotsCrossed 0x3FFF000 inc 7 = 2 :=
  ⟨_, 10388, by decide, by decide, by decide, rfl, by decide, by decide, by decide, by decide, by decide⟩
theorem witness_DirectAudioCellsPlayTheQueueThenSilence :
    ∃ (t : State) (inc : Nat),
      inc = directState.cfg.clock / directState.chip.rate.toNat * 2 ^ 16 % 2 ^ 32 / directState.cfg.daDivisor
      ∧ directState.tickReady 10 ∧ (directState.chip.chan 3).inRange ∧ exec (.tick 10) directState = .next t
      ∧ selectGenerator 3 (directState.chip.chan 3) = .directAudio
      ∧ 0 < (directState.chip.chan 3).freqHi.toNat % 16 * 256 + (directState.chip.chan 3).freqLo.toNat :=
  ⟨_, 10388, by decide, by decide, by decide, rfl, by decide, by decide⟩
theorem witness_NoiseTickCountsModuloTheRate :
    ∃ t : State, noiseState.tickReady 8 ∧ 0 < BitVec.toNat 8#24 ∧ (noiseState.chip.chan 5).noiseK.toNat < 2 ^ 31
      ∧ exec (.tick 8) noiseState = .next t ∧ selectGenerator 5 (noiseState.chip.chan 5) = .noise :=
  ⟨_, by decide, by decide, by decide, rfl, by decide⟩
/-- A counter just below the rate, and one at it. -/
theorem witness_NoiseDividerStepsAtMostOnce :
    (∃ k : Nat, 1 ≤ (tickValues vectorParameters 1 running.chip).rate
        ∧ k = (({ plain with noiseK := 41099 } : Channel).noiseK.toNat + 3000) % 2 ^ 32
        ∧ k < (tickValues vectorParameters 1 running.chip).rate)
      ∧ ∃ k : Nat, 1 ≤ (tickValues vectorParameters 1 running.chip).rate
        ∧ k = (({ plain with noiseK := 41100 } : Channel).noiseK.toNat + 3000) % 2 ^ 32
        ∧ (tickValues vectorParameters 1 running.chip).rate ≤ k :=
  ⟨⟨44099, by decide, by decide, by decide⟩, ⟨44100, by decide, by decide, by decide⟩⟩
theorem witness_NoiseCellsFollowTheLevel :
    selectGenerator 5 (noiseState.chip.chan 5) = .noise ∧ 7 < 8 * (if noiseState.chip.stereo then 2 else 1) := by decide
theorem witness_NoiseEmitsOnlyTwoValues :
    selectGenerator 5 (noiseState.chip.chan 5) = .noise ∧ 0x6D#8 ∈ noiseState.channelCells 1 5 := by decide +kernel
theorem witness_NoiseOutputDependsOnNoiseStateAlone :
    ∃ (v w : ChannelValues) (c d : Channel), v.gen = .noise ∧ w.gen = .noise ∧ v.tv = w.tv ∧ v.ninc = w.ninc
      ∧ c.lfsr = d.lfsr ∧ c.noiseK = d.noiseK ∧ c.nlevel = d.nlevel ∧ v ≠ w ∧ c ≠ d :=
  ⟨channelValues (tickValues vectorParameters 1 running.chip) 0xFF 5 noiseChannel,
    { channelValues (tickValues vectorParameters 1 running.chip) 0xFF 5 noiseChannel with lbal := 0 },
    noiseChannel, { noiseChannel with widx := 1 }, by decide +kernel⟩
theorem witness_LfsrStepTestsBitNineteen :
    BitVec.toNat 0x00080002#32 / 2 ^ 19 % 2 = 1 ∧ BitVec.toNat 0x00040001#32 / 2 ^ 19 % 2 = 0 := by decide
theorem witness_LfsrHighBitsNeverMatter : BitVec.toNat 0xFFF80002#32 % 2 ^ 20 = BitVec.toNat 0x00080002#32 % 2 ^ 20 := by
  decide
theorem witness_CenterIsSymmetricWithoutZero : BitVec.toNat 15#5 ≤ 15 ∧ 16 ≤ BitVec.toNat 16#5 := by decide
theorem witness_BalancesAreFlooredOnce : vectorParameters.balNum = 11 ∧ vectorParameters.balDen = 10 := by decide
/-- The least divisor and the greatest balance. -/
theorem witness_ScaledSampleFitsItsCell : 1 ≤ 1 ∧ 511 ≤ 511 := by decide
/-- Both readings, on the cell 0xBC of program P1. -/
theorem witness_SampleIsTheSumOfTheChannels :
    (∃ (t : State) (x : Sample), (inStereo toneState).tickReady 1 ∧ exec (.tick 1) (inStereo toneState) = .next t
        ∧ t.sampleOut[1]? = some x ∧ ((inStereo toneState).channelCells 1 0).getD 1 0 = 0xBC)
      ∧ ∃ (s t : State) (x : Sample), s.tickReady 1 ∧ exec (.tick 1) s = .next t ∧ t.sampleOut[1]? = some x
        ∧ s.cfg.scratchRead = .signed ∧ 128 ≤ ((s.channelCells 1 0).getD 1 0).toNat :=
  ⟨⟨_, _, by decide, rfl, by rfl, by decide +kernel⟩,
    { inStereo toneState with cfg := { vectorParameters with scratchRead := .signed } }, _, _, by decide, rfl, by rfl,
    by decide, by decide +kernel⟩
theorem witness_SamplesStayInRange :
    (∃ t : State, toneState.tickReady 2 ∧ exec (.tick 2) toneState = .next t ∧ t.sampleOut ≠ []
        ∧ toneState.cfg.scratchRead = .unsigned)
      ∧ ∃ s t : State, s.tickReady 2 ∧ exec (.tick 2) s = .next t ∧ t.sampleOut ≠ [] ∧ s.cfg.scratchRead = .signed :=
  ⟨⟨_, by decide, rfl, by decide +kernel, by decide⟩,
    { toneState with cfg := { vectorParameters with scratchRead := .signed } }, _, by decide, rfl, by decide +kernel,
    by decide⟩
theorem witness_ChannelOrderDoesNotMatter : ([5, 3, 1, 0, 2, 4] : List Chan).Perm channelOrder := by decide
theorem witness_DisabledChannelsGiveSilence :
    ∃ t : State, running.tickReady 4 ∧ exec (.tick 4) running = .next t
      ∧ ∀ ch : Chan, (running.chip.chan ch).ctrl.getLsbD 7 = false := ⟨_, by decide, rfl, by decide⟩

theorem witness_OffRaisesNotRunning :
    Instr.wellFormed (.tick 1) = true ∧ Instr.tick 1 ≠ .init ∧ Instr.tick 1 ≠ .rdstat ∧ off.lc = .off := by decide
theorem witness_IllegalWordRaisesIllegalCommand :
    (issued 0#32 off).cmdIn = 0#32 :: [] ∧ decode 0#32 = none := by decide
theorem witness_TickWithoutRateFaults : State.reset.lc = .run ∧ State.reset.chip.rate = 0 := by decide
/-- L7, L8: the least counts that do not fit. -/
theorem witness_TickBeyondTheBufferFaults :
    (running.lc = .run ∧ running.chip.rate ≠ 0
        ∧ running.cfg.bufCap < BitVec.toNat 2049#24 * (if running.chip.stereo then 2 else 1))
      ∧ (inStereo running).cfg.bufCap < BitVec.toNat 1025#24 * (if (inStereo running).chip.stereo then 2 else 1) := by
  decide
theorem witness_FaultedCommandHasNoOtherEffect :
    ∃ t : State, exec (.tick 0) State.reset = .next t ∧ t.resp.toNat / 2 ^ 16 % 8 ≠ 0 := ⟨_, rfl, by decide⟩
theorem witness_FaultIsClearedByInitOnly :
    (∃ t : State, step (issued 0xD0000000#32 { running with fault := 3 }) = .next t ∧ t.fault = 3)
      ∧ ∃ t : State, step (issued 0x10000000#32 { running with fault := 3 }) = .next t ∧ t.fault = 0 :=
  ⟨⟨_, rfl, by decide⟩, ⟨_, rfl, by decide⟩⟩
theorem witness_LifecycleChangesByInitAndShutdownOnly :
    (∃ t : State, exec .init off = .next t ∧ t.lc = .run) ∧ (∃ t : State, exec .shutdown running = .next t ∧ t.lc = .off)
      ∧ ∃ t : State, exec .rdstat off = .next t ∧ t.lc = .off := ⟨⟨_, rfl, rfl⟩, ⟨_, rfl, rfl⟩, ⟨_, rfl, rfl⟩⟩
theorem witness_OnlyInitAndTickWriteAccumulators :
    ∃ t : State, exec (.wrreg 0 5 1) toneState = .next t ∧ Instr.wrreg 0 5 1 ≠ .init ∧ Instr.wrreg 0 5 1 ≠ .shutdown
      ∧ ∀ n, Instr.wrreg 0 5 1 ≠ .tick n := ⟨_, rfl, by decide, by decide, by simp⟩
theorem witness_StepRunsTheDecodedCommand :
    (issued 0x900002DF#32 running).cmdIn = 0x900002DF#32 :: [] ∧ decode 0x900002DF#32 = some (.tick 735) := by decide
theorem witness_BlockHoldsItsStateBetweenCommands : running.cmdIn = [] := by decide
theorem witness_EveryStepAnswersANextState : running.cfg.lawful = true := by decide
theorem witness_StepsKeepParametersAndConsumeOneWord :
    ∃ t : State, step (issued 0x500000F3#32 running) = .next t := ⟨_, rfl⟩
theorem witness_InvariantHoldsAtReset : vectorParameters.lawful = true := by decide
theorem witness_StepKeepsTheInvariant :
    ∃ t : State, (issued 0x90000002#32 directState).inv ∧ step (issued 0x90000002#32 directState) = .next t :=
  ⟨_, by decide +kernel, rfl⟩
/-- At 7004 Hz the increment is exactly one slot. -/
theorem witness_StepKeepsQueuesAligned :
    ∃ s t : State, s.inv ∧ s.queuesAligned
      ∧ s.cfg.clock / s.chip.rate.toNat * 2 ^ 16 % 2 ^ 32 / s.cfg.daDivisor = 65536 ∧ step s = .next t :=
  ⟨issued 0x90000002#32 { directState with chip := { directState.chip with rate := 7004 } }, _, by decide +kernel,
    by decide +kernel, by decide, rfl⟩
theorem witness_DecodeOfEncodeIsTheCommand : Instr.wellFormed (.wrwave 5 31 255) = true := by decide
theorem witness_DecodedWordIsTheEncodedOne : decode 0xC51F0000#32 = some (.rdwave 5 31) := by decide

end Sys2Proof.Tests
end

section
/-! PROOF. The scope statements (00_scope.md): the rounded quotient, the scaled sample in its 8-bit cell (rules R4, R177),
and what every step does to the parameters and the command port (rules R4, R46). -/

namespace Sys2Proof.Machine

/-! ### The rounded quotient -/

theorem idiv_floor_bounds (a : Int) {b : Nat} (hb : 1 ≤ b) :
    b * idiv .floor a b ≤ a ∧ a < b * (idiv .floor a b + 1) := by
  have hpos : (0 : Int) < b := by omega
  have hq : idiv .floor a b = a / b := Int.fdiv_eq_ediv_of_nonneg a hpos.le
  rw [hq, mul_add, mul_one]
  exact ⟨Int.mul_ediv_self_le hpos.ne', Int.lt_mul_ediv_self_add hpos⟩

theorem idiv_trunc_natAbs (a : Int) (b : Nat) : (idiv .trunc a b).natAbs = a.natAbs / b :=
  Int.natAbs_tdiv a b

/-- On a natural dividend this is natural division; a minus sign of the dividend passes to the quotient. -/
theorem idiv_trunc_eq_sign_mul (a : Int) (b : Nat) : idiv .trunc a b = a.sign * ((a.natAbs / b : Nat) : Int) := by
  have hn (n : Nat) : Int.tdiv n b = Int.sign n * ((n / b : Nat) : Int) := by
    cases n with
    | zero => simp
    | succ n => rw [Int.sign_eq_one_of_pos (by omega), one_mul, Int.ofNat_tdiv]
  obtain ⟨n, rfl | rfl⟩ := a.eq_nat_or_neg
  · exact hn n
  · rw [Int.natAbs_neg, Int.natAbs_natCast, Int.sign_neg, neg_mul, ← hn]
    exact Int.neg_tdiv n b

/-! ### The scaled sample: at most 16 × 511 = 8176 in magnitude, which is 127 × 64 + 48 -/

theorem center_natAbs_le (raw : Amp) : (center raw).natAbs ≤ 16 := by
  have hraw := raw.isLt
  unfold center
  split <;> omega

theorem center_mul_balance_natAbs_le (raw : Amp) {balance : Nat} (h : balance ≤ 511) :
    (center raw * balance).natAbs ≤ 8176 := by
  rw [Int.natAbs_mul, Int.natAbs_natCast]
  exact Nat.mul_le_mul (center_natAbs_le raw) h

theorem idiv_trunc_64_range {a : Int} (ha : a.natAbs ≤ 8176) :
    -127 ≤ idiv .trunc a 64 ∧ idiv .trunc a 64 ≤ 127 := by
  have hq := idiv_trunc_natAbs a 64
  omega

theorem idiv_floor_64_range {a : Int} (ha : a.natAbs ≤ 8176) :
    -128 ≤ idiv .floor a 64 ∧ idiv .floor a 64 ≤ 127 := by
  obtain ⟨hlo, hhi⟩ := idiv_floor_bounds a (b := 64) (by decide)
  omega

theorem idiv_64_range (r : DivRound) {a : Int} (ha : a.natAbs ≤ 8176) : -128 ≤ idiv r a 64 ∧ idiv r a 64 ≤ 127 := by
  cases r with
  | trunc => exact (idiv_trunc_64_range ha).imp_left (le_trans (by decide))
  | floor => exact idiv_floor_64_range ha

theorem low8_toInt {x : Int} (hlo : -128 ≤ x) (hhi : x ≤ 127) : (low8 x).toInt = x :=
  BitVec.toInt_ofInt_eq_self (by decide) hlo (Int.lt_add_one_of_le hhi)

theorem scaledCell_toInt (r : DivRound) {s : Int} {balance : Nat} (h : (s * balance).natAbs ≤ 8176) :
    (scaledCell r s balance).toInt = idiv r (s * balance) 64 :=
  low8_toInt (idiv_64_range r h).1 (idiv_64_range r h).2

/-- Settles O35: `floor` through Euclidean division, `trunc` through division of naturals, the cell by the
bound 8176 on the magnitude of the scaled sample. -/
theorem scaledSampleFitsItsCell : Obligations.ScaledSampleFitsItsCell := by
  refine ⟨fun a b hb => ⟨idiv_floor_bounds a hb, idiv_trunc_eq_sign_mul a b⟩, fun r raw balance hbal => ?_⟩
  have hmag := center_mul_balance_natAbs_le raw hbal
  refine ⟨scaledCell_toInt r hmag, ?_, ?_⟩
  · rintro rfl
    exact idiv_trunc_64_range hmag
  · rintro rfl
    exact idiv_floor_64_range hmag

/-! ### Parameters and command port -/

/-- No answer of a command touches the parameters or the command port; the stop on excluded parameters has no next
state. -/
theorem ExecAnswer.keeps_cfg_cmdIn {i : Instr} {s t : State} {r : Result} (h : ExecAnswer i s r) (ht : r = .next t) :
    t.cfg = s.cfg ∧ t.cmdIn = s.cmdIn := by
  cases h with
  | parameters => cases ht
  | _ => cases ht; exact ⟨rfl, rfl⟩

theorem exec_keeps_cfg_cmdIn {i : Instr} {s t : State} (h : exec i s = .next t) :
    t.cfg = s.cfg ∧ t.cmdIn = s.cmdIn :=
  (exec_answer i s).keeps_cfg_cmdIn h

theorem raise_keeps_cfg_cmdIn {f : FaultName} {s t : State} (h : raise f s = .next t) :
    t.cfg = s.cfg ∧ t.cmdIn = s.cmdIn := by
  cases h
  exact ⟨rfl, rfl⟩

/-- Settles O52: an idle step holds the state, and any other step takes the oldest word off the port before a fault or
a command, neither of which touches the parameters or the port. -/
theorem stepsKeepParametersAndConsumeOneWord : Obligations.StepsKeepParametersAndConsumeOneWord := by
  intro s t h
  obtain ⟨hin, hstep⟩ | ⟨w, rest, hin, ⟨-, hstep⟩ | ⟨i, -, hstep⟩⟩ := step_cases s <;> rw [hstep] at h <;> rw [hin]
  · cases h
    exact ⟨rfl, hin⟩
  · exact raise_keeps_cfg_cmdIn h
  · exact exec_keeps_cfg_cmdIn h

end Sys2Proof.Machine
end

section
/-! PROOF. The state statements (10_state.md): the ranges every step keeps (rules R18 to R29), the host's side of a tick
and the accumulators (rule R31), the low bits of the shift register (rule R25). -/

namespace Sys2Proof.Machine

/-! ### One sample of a generator: what it keeps, the generator keeps -/

theorem playLoop_preserves {t : TickValues} {v : ChannelValues} {P : Channel → Prop}
    (hstep : ∀ idx c, c.dacnt ≠ 0 → P c → P (queueTransition idx (advanceDirect v.incDa c)).2)
    (n : Nat) (idx : BitVec 10) (c : Channel) (hc : P c) : P (playLoop t v n idx c).1 := by
  induction n generalizing idx c with
  | zero => exact hc
  | succ n ih =>
    by_cases h : c.dacnt = 0
    · rwa [playLoop_empty t v _ idx h]
    · rw [playLoop_succ t v n idx h]
      exact ih _ _ (hstep idx c h hc)

theorem directGenerator_preserves {t : TickValues} {v : ChannelValues} {P : Channel → Prop}
    (hstep : ∀ idx c, c.dacnt ≠ 0 → P c → P (queueTransition idx (advanceDirect v.incDa c)).2)
    (c : Channel) (hc : P c) : P (directGenerator t v c).1 := by
  unfold directGenerator
  split
  · exact hc
  · exact playLoop_preserves hstep t.n _ c hc

/-- A property of channels that one sample of each generator keeps, the selected generator keeps over a tick. -/
theorem runGenerator_preserves {t : TickValues} {v : ChannelValues} {P : Channel → Prop}
    (hdirect : ∀ idx c, c.dacnt ≠ 0 → P c → P (queueTransition idx (advanceDirect v.incDa c)).2)
    (hnoise : ∀ c, P c → P (noiseDivider t v.ninc c))
    (htone : ∀ c, P c → P (advanceWave v.incW c))
    (c : Channel) (hc : P c) : P (runGenerator t v c).1 := by
  unfold runGenerator
  cases v.gen with
  | off => exact hc
  | silent => exact hc
  | directAudio => exact directGenerator_preserves hdirect c hc
  | noise => exact sampleLoop_keeps (f := noiseSample t v) hnoise t.n c hc
  | tone => exact sampleLoop_keeps (f := toneSample t v) htone t.n c hc

/-! ### The count and the accumulators after one sample -/

theorem toNat_ofNat_le (w n : Nat) : (BitVec.ofNat w n).toNat ≤ n := by
  rw [BitVec.toNat_ofNat]
  exact Nat.mod_le n _

theorem wavePhaseAfter_lt (inc : Nat) (phase : Word) : (wavePhaseAfter inc phase).toNat < 2 ^ 21 :=
  (toNat_ofNat_le _ _).trans_lt (Nat.and_lt_two_pow _ (by decide))

theorem directPhaseAfter_lt (inc : Nat) (phase : Word) : (directPhaseAfter inc phase).toNat < 2 ^ 26 :=
  (toNat_ofNat_le _ _).trans_lt (Nat.and_lt_two_pow _ (by decide))

/-- The count only falls: it is not 0 where a transition takes one from it (43_direct_audio.md rules R134, R135). -/
theorem queueTransition_dacnt_le (idx : BitVec 10) {c : Channel} (h : c.dacnt ≠ 0) :
    (queueTransition idx c).2.dacnt.toNat ≤ c.dacnt.toNat := by
  rw [queueTransition_eq]
  dsimp only
  split
  · exact le_rfl
  · bv_omega

theorem runGenerator_dacnt_le (t : TickValues) (v : ChannelValues) (c : Channel) :
    (runGenerator t v c).1.dacnt.toNat ≤ c.dacnt.toNat := by
  refine runGenerator_preserves (P := fun d => d.dacnt.toNat ≤ c.dacnt.toNat) ?_ ?_ ?_ c le_rfl
  · exact fun idx d hd hle => (queueTransition_dacnt_le idx (c := advanceDirect v.incDa d) hd).trans hle
  · intro d hle
    rwa [(noiseDivider_keeps t v.ninc d).2.2.1]
  · exact fun d hle => hle

/-- The counter keeps the remainder where it reaches the rate (44_noise_generator.md rule R153). -/
theorem noiseDivider_noiseK_lt {t : TickValues} (hr : 0 < t.rate) (ninc : Nat) (c : Channel) :
    (noiseDivider t ninc c).noiseK.toNat < t.rate := by
  unfold noiseDivider
  dsimp only
  split
  · obtain ⟨-, -, -, -, -, hk⟩ := lfsrStep_keeps t.cfg.noiseTap
      { c with noiseK := BitVec.ofNat 32 ((c.noiseK.toNat + ninc) % 2 ^ 32
        - t.rate * ((c.noiseK.toNat + ninc) % 2 ^ 32 / t.rate)) }
    rw [hk, ← Nat.mod_eq_sub]
    exact (toNat_ofNat_le _ _).trans_lt (Nat.mod_lt _ hr)
  · next h =>
    have hlt : (c.noiseK.toNat + ninc) % 2 ^ 32 < t.rate := by
      rwa [Nat.one_le_div_iff hr, not_le] at h
    exact (toNat_ofNat_le _ _).trans_lt hlt

/-! ### The ranges of a channel (rules R18, R20 to R24) -/

/-- Every accumulator, count and table of the channel in range. -/
abbrev Channel.bounded (c : Channel) : Prop := c.inRange ∧ c.counterInRange

theorem resetChannel_bounded (seed : Word) (level : NoiseLevel) : (resetChannel seed level).bounded := by
  simp [Channel.bounded, Channel.inRange, Channel.counterInRange, resetChannel]

theorem writeReg_bounded {c : Channel} (h : c.bounded) (r : RegName) (v : Byte) : (c.writeReg r v).bounded := by
  cases r <;> exact h

theorem writeWave_bounded {c : Channel} (h : c.bounded) (k : Fin 32) (v : Amp) :
    Channel.bounded { c with wave := memWrite c.wave k v } := by
  obtain ⟨⟨hw, hd, hn, hwave, hdaq⟩, hk⟩ := h
  exact ⟨⟨hw, hd, hn, memWrite_wf hwave k.isLt v, hdaq⟩, hk⟩

theorem queuePush_bounded {c : Channel} (h : c.bounded) (hfull : c.dacnt ≠ 1024) (v : Amp) :
    (queuePush v c).bounded := by
  obtain ⟨⟨hw, hd, hn, hwave, hdaq⟩, hk⟩ := h
  have hn' : (c.dacnt + 1).toNat ≤ 1024 := by bv_omega
  exact ⟨⟨hw, hd, hn', hwave, memWrite_wf hdaq c.dawr.isLt v⟩, hk⟩

theorem advanceWave_bounded {c : Channel} (h : c.bounded) (inc : Nat) : (advanceWave inc c).bounded := by
  obtain ⟨⟨-, hrest⟩, hk⟩ := h
  exact ⟨⟨wavePhaseAfter_lt inc c.wphase, hrest⟩, hk⟩

theorem noiseDivider_bounded {t : TickValues} (hr : 0 < t.rate) (hr24 : t.rate < 2 ^ 24) (ninc : Nat) {c : Channel}
    (h : c.bounded) : (noiseDivider t ninc c).bounded := by
  obtain ⟨⟨-, -, -, -, -, hwave, hdaq, -⟩, -, hn, hw, hd⟩ := noiseDivider_keeps t ninc c
  refine ⟨?_, (noiseDivider_noiseK_lt hr ninc c).trans hr24⟩
  rw [Channel.inRange, hw, hd, hn, hwave, hdaq]
  exact h.1

theorem directStep_bounded (idx : BitVec 10) (inc : Nat) {c : Channel} (hne : c.dacnt ≠ 0) (h : c.bounded) :
    (queueTransition idx (advanceDirect inc c)).2.bounded := by
  obtain ⟨⟨hw, -, hn, hwave, hdaq⟩, hk⟩ := h
  obtain ⟨⟨-, -, -, -, -, ewave, edaq, -⟩, -, ew, ed, ek, -, -⟩ := queueTransition_keeps idx (advanceDirect inc c)
  have hn' := queueTransition_dacnt_le idx (c := advanceDirect inc c) hne
  rw [Channel.bounded, Channel.inRange, Channel.counterInRange, ew, ed, ewave, edaq, ek]
  exact ⟨⟨hw, directPhaseAfter_lt inc c.daphase, hn'.trans hn, hwave, hdaq⟩, hk⟩

/-- The selected generator keeps the ranges, at any rate but 0 that fits `RATE`. -/
theorem runGenerator_bounded {t : TickValues} (hr : 0 < t.rate) (hr24 : t.rate < 2 ^ 24) (v : ChannelValues)
    {c : Channel} (h : c.bounded) : (runGenerator t v c).1.bounded :=
  runGenerator_preserves (P := Channel.bounded) (fun idx _ hne h => directStep_bounded idx v.incDa hne h)
    (fun _ h => noiseDivider_bounded hr hr24 v.ninc h) (fun _ h => advanceWave_bounded h v.incW) c h

/-! ### The ranges of the Chip State (rule R29) -/

theorem resetChip_inRange (cfg : Config) (bufCap : Nat) : (resetChip cfg).inRange bufCap := by
  refine ⟨fun ch => ?_, Nat.zero_le _, Nat.zero_le _⟩
  rw [resetChip_chan]
  exact resetChannel_bounded _ _

theorem setChan_inRange {bufCap : Nat} {chip : Chip} (h : chip.inRange bufCap) (ch : Chan) {x : Channel}
    (hx : x.bounded) : (chip.setChan ch x).inRange bufCap := by
  obtain ⟨hchan, hscr, hdest⟩ := h
  refine ⟨fun ch' => ?_, hscr, hdest⟩
  rw [chan_setChan]
  split
  · exact hx
  · exact hchan ch'

/-- What a tick of `cells` cells leaves of a buffer's specified cells: those it fills, and those beyond. -/
theorem length_append_drop_le {α : Type} {bufCap : Nat} {new old : List α} (hnew : new.length ≤ bufCap)
    (hold : old.length ≤ bufCap) : (new ++ old.drop new.length).length ≤ bufCap := by
  rw [List.length_append, List.length_drop]
  omega

theorem zeroFill_dest_length_le {bufCap : Nat} {t : TickValues} (hcells : t.cells ≤ bufCap) {chip : Chip}
    (h : chip.dest.length ≤ bufCap) : (zeroFill t chip).dest.length ≤ bufCap := by
  have hz := length_append_drop_le (new := List.replicate t.cells (0 : Sample)) (by simpa using hcells) h
  rwa [List.length_replicate] at hz

theorem tickChannel_scr_length_le {bufCap : Nat} {t : TickValues} (hcells : t.cells ≤ bufCap) (start : Chip)
    {chip : Chip} (h : chip.scr.length ≤ bufCap) (ch : Chan) : (tickChannel t start chip ch).scr.length ≤ bufCap :=
  length_append_drop_le ((runGenerator_length t _ _).trans_le hcells) h

theorem tickChannel_dest_length (t : TickValues) (start chip : Chip) (ch : Chan) :
    (tickChannel t start chip ch).dest.length = chip.dest.length := by
  rw [tickChannel_dest, mixCells_length]

/-- The buffers of a tick that fits stay inside `BUF_CAP` through the six channels. -/
theorem tickChannels_buffers_le {bufCap : Nat} {t : TickValues} (hcells : t.cells ≤ bufCap) {start : Chip}
    (hscr : start.scr.length ≤ bufCap) (hdest : start.dest.length ≤ bufCap) (order : List Chan) :
    (tickChannels t start order).scr.length ≤ bufCap ∧ (tickChannels t start order).dest.length ≤ bufCap := by
  refine tickChannels_keeps (P := fun chip => chip.scr.length ≤ bufCap ∧ chip.dest.length ≤ bufCap)
    ⟨hscr, zeroFill_dest_length_le hcells hdest⟩ (fun chip ch ⟨hs, hd⟩ => ?_) order
  exact ⟨tickChannel_scr_length_le hcells start hs ch, (tickChannel_dest_length t start chip ch).trans_le hd⟩

theorem forgetUnspecified_buffers_le {bufCap : Nat} (t : TickValues) {chip : Chip} (hscr : chip.scr.length ≤ bufCap)
    (hdest : chip.dest.length ≤ bufCap) :
    (forgetUnspecified t chip).scr.length ≤ bufCap ∧ (forgetUnspecified t chip).dest.length ≤ bufCap := by
  rw [forgetUnspecified_scr, forgetUnspecified_dest]
  split
  · exact ⟨hscr, hdest⟩
  · exact ⟨Nat.zero_le _, (List.length_take_le' _ _).trans hdest⟩

/-- A tick that fits the buffers keeps the Chip State in range. -/
theorem tickChip_inRange {cfg : Config} {n : Nat} {chip : Chip} (h : chip.inRange cfg.bufCap) (hrate : chip.rate ≠ 0)
    (hfits : n * slotsOf chip.stereo ≤ cfg.bufCap) : (tickChip cfg n chip).inRange cfg.bufCap := by
  obtain ⟨hchan, hscr, hdest⟩ := h
  have hpos : 0 < chip.rate.toNat := by bv_omega
  obtain ⟨hscr', hdest'⟩ := tickChannels_buffers_le (t := tickValues cfg n chip) hfits hscr hdest channelOrder
  refine ⟨fun ch => ?_, forgetUnspecified_buffers_le _ hscr' hdest'⟩
  rw [tickChip_chan]
  exact runGenerator_bounded hpos chip.rate.isLt _ (hchan ch)

/-! ### The invariant of the block -/

/-- The codes a fault can record (60_exceptions.md rule R220). -/
theorem faultCode_toNat_le (f : FaultName) : (faultCode f).toNat ≤ 5 := by
  cases f <;> decide

theorem faulted_inv {s : State} (h : s.inv) (f : FaultName) : (faulted (faultCode f) s).inv := by
  obtain ⟨hcfg, hfault, hchip⟩ := h
  refine ⟨hcfg, ?_, hchip⟩
  show (if s.fault = 0 then faultCode f else s.fault).toNat ≤ 5
  split
  · exact faultCode_toNat_le f
  · exact hfault

theorem answer_inv {s : State} (h : s.inv) (d : BitVec 16) : (answer d s).inv := h

theorem updateChannel_inv {s : State} (h : s.inv) (ch : Chan) {f : Channel → Channel}
    (hf : (s.chip.chan ch).bounded → (f (s.chip.chan ch)).bounded) : (updateChannel s ch f).inv := by
  obtain ⟨hcfg, hfault, hchip⟩ := h
  exact ⟨hcfg, hfault, fun hl => setChan_inRange (hchip hl) ch (hf ((hchip hl).1 ch))⟩

/-- Every answer of a command keeps the invariant; INIT starts it anew, and after SHUTDOWN the block does not run. -/
theorem ExecAnswer.inv {i : Instr} {s t : State} {r : Result} (h : ExecAnswer i s r) (hs : s.inv) (ht : r = .next t) :
    t.inv := by
  have ⟨hcfg, hfault, hchip⟩ := hs
  cases h with
  | faulted f => cases ht; exact faulted_inv hs f
  | read | cfgrate | cfgstereo | wrgvol => cases ht; exact hs
  | init => cases ht; exact ⟨hcfg, Nat.zero_le _, fun _ => resetChip_inRange _ _⟩
  | shutdown => cases ht; exact ⟨hcfg, hfault, fun hl => nomatch hl⟩
  | wrreg ch idx data c r =>
    cases ht
    exact answer_inv (updateChannel_inv hs c fun hb => writeReg_bounded hb r data) 0
  | wrwave ch idx data c k =>
    cases ht
    exact answer_inv (updateChannel_inv hs c fun hb => writeWave_bounded hb k (cellData data)) 0
  | pushda ch data c _ _ hfull =>
    cases ht
    exact answer_inv (updateChannel_inv hs c fun hb => queuePush_bounded hb hfull (cellData data)) 0
  | parameters => cases ht
  | tick n _ hrun hrate hfits =>
    cases ht
    exact ⟨hcfg, hfault, fun _ => tickChip_inRange (hchip hrun) hrate hfits⟩

/-- Settles O54: an idle step changes nothing, an illegal word only records a fault, and a command keeps the invariant
by `ExecAnswer.inv`, of which TICK is the long case. -/
theorem stepKeepsTheInvariant : Obligations.StepKeepsTheInvariant := by
  intro s t hs h
  obtain ⟨-, hstep⟩ | ⟨w, rest, -, ⟨-, hstep⟩ | ⟨i, -, hstep⟩⟩ := step_cases s <;> rw [hstep] at h
  · cases h
    exact hs
  · rw [raise_faulted] at h
    cases h
    exact faulted_inv hs .illegalCommand
  · exact (exec_answer i { s with cmdIn := rest }).inv hs h

/-- Settles O53: a reset channel is in range and its queue is empty at slot 0; at power-on the block does not run. -/
theorem invariantHoldsAtReset : Obligations.InvariantHoldsAtReset := by
  refine ⟨⟨by decide, by decide, fun _ => resetChip_inRange _ _⟩, fun _ ch => ?_,
    fun cfg hcfg => ⟨hcfg, Nat.zero_le _, fun hl => nomatch hl⟩⟩
  show ((resetChip vectorParameters).chan ch).queueAligned
  rw [resetChip_chan]
  simp [Channel.queueAligned, Channel.queueSlot, resetChannel]

/-! ### The host's side of a tick (rule R31) -/

/-- When TICK executes, it answers this state (45_balance_mixer.md rule R170). -/
theorem exec_tick_of_ready {n : BitVec 24} {s : State} (h : s.tickReady n) :
    exec (.tick n) s = .next { answer 0 s with
      chip := tickChip s.cfg n.toNat s.chip
      sampleOut := (tickChip s.cfg n.toNat s.chip).dest.take (n.toNat * slotsOf s.chip.stereo) } := by
  obtain ⟨hrun, hrate, hfits, hlaw⟩ := h
  show execTick n s = _
  rcases execTick_cases n s with ⟨h, -⟩ | ⟨-, h, -⟩ | ⟨-, -, h, -⟩ | ⟨-, -, -, h, -⟩ | ⟨-, -, -, -, e⟩
  · simp [hrun] at h
  · exact absurd h hrate
  · exact absurd hfits (not_le.mpr h)
  · simp [hlaw] at h
  · exact e

theorem mixCells_nil (t : TickValues) (i : Nat) (ds : List Sample) : mixCells t i [] ds = ds := by
  cases ds <;> rfl

/-- A tick of no samples leaves the destination buffer as it was (45_balance_mixer.md rule R170). -/
theorem tickChip_dest_zero (cfg : Config) (chip : Chip) : (tickChip cfg 0 chip).dest = chip.dest := by
  have hcells : (tickValues cfg 0 chip).cells = 0 := Nat.zero_mul _
  have hdest : (tickChannels (tickValues cfg 0 chip) chip channelOrder).dest = chip.dest := by
    refine tickChannels_keeps (P := fun c => c.dest = chip.dest) (by simp [hcells]) (fun c ch hc => ?_) channelOrder
    have hnil := List.eq_nil_of_length_eq_zero ((runGenerator_length (tickValues cfg 0 chip)
      (channelValues (tickValues cfg 0 chip) chip.gvol ch (chip.chan ch)) (c.chan ch)).trans hcells)
    rw [tickChannel_dest, hnil, mixCells_nil, hc]
  rw [← hdest]
  exact congrArg Chip.dest (forgetUnspecified_zero rfl _)

/-- Settles O17: the channels by what their generators keep, the destination buffer by what a tick leaves of it. -/
theorem tickLeavesHostSideAlone : Obligations.TickLeavesHostSideAlone := by
  intro n s t hready h
  rw [exec_tick_of_ready hready] at h
  cases h
  refine ⟨fun ch => ?_, fun hn => tickChip_dest_pos s.cfg hn.ne' s.chip, fun hn => ?_⟩
  · simp only [tickChip_chan]
    obtain ⟨hlo, hhi, hctrl, hbal, hnoise, hwave, hdaq, hdawr⟩ := runGenerator_keeps (tickValues s.cfg n.toNat s.chip)
      (channelValues (tickValues s.cfg n.toNat s.chip) s.chip.gvol ch (s.chip.chan ch)) (s.chip.chan ch)
    refine ⟨?_, hwave, hdaq, hdawr, runGenerator_dacnt_le _ _ _⟩
    simp [Channel.bank, hlo, hhi, hctrl, hbal, hnoise]
  · simp only [hn]
    exact tickChip_dest_zero s.cfg s.chip

/-! ### The accumulators (rule R31) -/

/-- The accumulators of a channel (rules R22 to R26). -/
def Channel.accumulators (c : Channel) : Word × Word × Word × Word × NoiseLevel :=
  (c.wphase, c.daphase, c.noiseK, c.lfsr, c.nlevel)

theorem setChan_accumulators {chip : Chip} {c : Chan} {x : Channel}
    (hx : x.accumulators = (chip.chan c).accumulators) (ch : Chan) :
    ((chip.setChan c x).chan ch).accumulators = (chip.chan ch).accumulators := by
  rw [chan_setChan]
  split
  · next h => rw [hx, h]
  · rfl

theorem writeReg_accumulators (c : Channel) (r : RegName) (v : Byte) :
    (c.writeReg r v).accumulators = c.accumulators := by
  cases r <;> rfl

theorem ExecAnswer.keeps_accumulators {i : Instr} {s t : State} {r : Result} (h : ExecAnswer i s r) (ht : r = .next t)
    (hinit : i ≠ .init) (hshut : i ≠ .shutdown) (htick : ∀ n, i ≠ .tick n) :
    (∀ ch, (t.chip.chan ch).accumulators = (s.chip.chan ch).accumulators)
      ∧ t.chip.scr = s.chip.scr ∧ t.chip.dest = s.chip.dest := by
  cases h with
  | faulted | read | cfgrate | cfgstereo | wrgvol => cases ht; exact ⟨fun _ => rfl, rfl, rfl⟩
  | wrreg ch idx data c r =>
    cases ht
    exact ⟨setChan_accumulators (writeReg_accumulators _ r data), rfl, rfl⟩
  | wrwave | pushda => cases ht; exact ⟨setChan_accumulators rfl, rfl, rfl⟩
  | init h => exact absurd h hinit
  | shutdown h => exact absurd h hshut
  | parameters n h => exact absurd h (htick n)
  | tick n h => exact absurd h (htick n)

/-- Settles O48: register, table and queue writes replace a channel by one with the same accumulators, and every
other command leaves the channels. -/
theorem onlyInitAndTickWriteAccumulators : Obligations.OnlyInitAndTickWriteAccumulators := by
  intro i s t ch h hinit hshut htick
  obtain ⟨hacc, hscr, hdest⟩ := (exec_answer i s).keeps_accumulators h hinit hshut htick
  simp only [Channel.accumulators, Prod.mk.injEq] at hacc
  obtain ⟨hw, hd, hk, hl, hv⟩ := hacc ch
  exact ⟨hw, hd, hk, hl, hv, hscr, hdest⟩

/-! ### The low bits of the shift register (rule R25) -/

theorem mod_two_pow_eq_iff (x y : Word) (k : Nat) :
    x.toNat % 2 ^ k = y.toNat % 2 ^ k ↔ ∀ i < k, x.getLsbD i = y.getLsbD i := by
  constructor
  · intro h i hi
    have hbit := congrArg (fun n => n.testBit i) h
    simpa [Nat.testBit_mod_two_pow, hi, BitVec.testBit_toNat] using hbit
  · intro h
    refine Nat.eq_of_testBit_eq fun i => ?_
    by_cases hi : i < k <;> simp [Nat.testBit_mod_two_pow, BitVec.testBit_toNat, hi, h]

theorem lfsrStep_nlevel (tap : Word) (c : Channel) :
    (lfsrStep tap c).nlevel = if c.lfsr.getLsbD 19 then .minus else .plus := by
  unfold lfsrStep
  split <;> rfl

theorem lfsrStep_lfsr (tap : Word) (c : Channel) :
    (lfsrStep tap c).lfsr = if c.lfsr.getLsbD 19 then ((c.lfsr ^^^ tap) <<< 1) ||| 1 else c.lfsr <<< 1 := by
  unfold lfsrStep
  split <;> rfl

/-- Bits 19:0 of the two shift registers agree. -/
abbrev sameLowBits (c d : Channel) : Prop := ∀ i < 20, c.lfsr.getLsbD i = d.lfsr.getLsbD i

theorem lfsrStep_nlevel_congr (tap : Word) {c d : Channel} (h : sameLowBits c d) :
    (lfsrStep tap c).nlevel = (lfsrStep tap d).nlevel := by
  rw [lfsrStep_nlevel, lfsrStep_nlevel, h 19 (by decide)]

/-- The register shifts upwards: bit `i` after a step comes from bits `i - 1` and 19 before it. -/
theorem lfsrStep_sameLowBits (tap : Word) {c d : Channel} (h : sameLowBits c d) :
    sameLowBits (lfsrStep tap c) (lfsrStep tap d) := by
  intro i hi
  have hbelow : c.lfsr.getLsbD (i - 1) = d.lfsr.getLsbD (i - 1) := h (i - 1) (by omega)
  rw [lfsrStep_lfsr, lfsrStep_lfsr, h 19 (by decide)]
  split <;> simp [hbelow]

theorem lfsrStep_iterate_sameLowBits (tap : Word) {c d : Channel} (h : sameLowBits c d) (k : Nat) :
    sameLowBits ((lfsrStep tap)^[k] c) ((lfsrStep tap)^[k] d) := by
  induction k with
  | zero => exact h
  | succ k ih =>
    rw [Function.iterate_succ_apply', Function.iterate_succ_apply']
    exact lfsrStep_sameLowBits tap ih

/-- Settles O31: every step keeps the agreement of the low bits, and the level of a step is read from bit 19. -/
theorem lfsrHighBitsNeverMatter : Obligations.LfsrHighBitsNeverMatter := by
  intro tap c d k h
  have hk := lfsrStep_iterate_sameLowBits tap ((mod_two_pow_eq_iff _ _ _).mp h) k
  rw [Function.iterate_succ_apply', Function.iterate_succ_apply']
  exact ⟨lfsrStep_nlevel_congr tap hk, (mod_two_pow_eq_iff _ _ _).mpr hk⟩

end Sys2Proof.Machine
end

section
/-! PROOF. The memory statements (20_memory.md): the two sides of the direct-audio queue stay in step (rules R49, R262),
and the read commands change no element (rule R44). -/

namespace Sys2Proof.Machine

/-! ### The slot after one advance (rule R262) -/

theorem queueSlot_toNat (c : Channel) : c.queueSlot.toNat = c.daphase.toNat / 65536 % 1024 := by
  simp [Channel.queueSlot, BitVec.extractLsb'_toNat, Nat.shiftRight_eq_div_pow]

theorem directPhaseAfter_toNat (inc : Nat) (phase : Word) :
    (directPhaseAfter inc phase).toNat = (phase.toNat + inc) % 2 ^ 26 := by
  have hmask : (phase.toNat + inc) &&& 0x3FFFFFF = (phase.toNat + inc) % 2 ^ 26 :=
    Nat.and_two_pow_sub_one_eq_mod _ 26
  rw [directPhaseAfter, hmask, BitVec.toNat_ofNat]
  omega

/-- An advance by at most 65536 leaves the slot or moves it to the next one. -/
theorem advanceDirect_queueSlot {inc : Nat} (hinc : inc ≤ 65536) (c : Channel) :
    (advanceDirect inc c).queueSlot = c.queueSlot ∨ (advanceDirect inc c).queueSlot = c.queueSlot + 1 := by
  have hnew : (advanceDirect inc c).queueSlot.toNat = (c.daphase.toNat + inc) % 2 ^ 26 / 65536 % 1024 := by
    rw [queueSlot_toNat, advanceDirect_daphase, directPhaseAfter_toNat]
  have hold := queueSlot_toNat c
  bv_omega

/-! ### A queue through one operation (rule R49) -/

theorem queueAligned_congr {c d : Channel} (hphase : d.daphase = c.daphase) (hcnt : d.dacnt = c.dacnt)
    (hwr : d.dawr = c.dawr) (h : c.queueAligned) : d.queueAligned := by
  rwa [Channel.queueAligned, Channel.queueSlot, hphase, hcnt, hwr]

theorem resetChannel_queueAligned (seed : Word) (level : NoiseLevel) : (resetChannel seed level).queueAligned := by
  simp [Channel.queueAligned, Channel.queueSlot, resetChannel]

theorem writeReg_queueAligned {c : Channel} (h : c.queueAligned) (r : RegName) (v : Byte) :
    (c.writeReg r v).queueAligned :=
  queueAligned_congr (writeReg_daphase c r v) (writeReg_dacnt c r v) (writeReg_dawr c r v) h

theorem queuePush_queueAligned {c : Channel} (h : c.queueAligned) (v : Amp) : (queuePush v c).queueAligned := by
  show (c.queueSlot.toNat + (c.dacnt + 1).toNat) % 1024 = (c.dawr + 1).toNat
  rw [Channel.queueAligned] at h
  bv_omega

/-- One sample of the player: the slot moves exactly where the count falls, and both by one. -/
theorem directStep_queueAligned {inc : Nat} (hinc : inc ≤ 65536) {c : Channel} (h : c.queueAligned) :
    (queueTransition c.queueSlot (advanceDirect inc c)).2.queueAligned := by
  rw [queueTransition_eq]
  dsimp only
  split
  · next hsame =>
    rw [Channel.queueAligned, hsame]
    exact h
  · next hmoved =>
    have hslot := (advanceDirect_queueSlot hinc c).resolve_left hmoved
    show ((advanceDirect inc c).queueSlot.toNat + (c.dacnt - 1).toNat) % 1024 = c.dawr.toNat
    rw [hslot]
    rw [Channel.queueAligned] at h
    bv_omega

/-! ### A queue through a tick -/

/-- The player's working copy is the slot of the phase at every sample (43_direct_audio.md rule R134), so the queue
stays aligned to the end of the loop. -/
theorem playLoop_queueAligned {t : TickValues} {v : ChannelValues} (hinc : v.incDa ≤ 65536) (n : Nat) {c : Channel}
    (h : c.queueAligned) : (playLoop t v n c.queueSlot c).1.queueAligned := by
  induction n generalizing c with
  | zero => exact h
  | succ n ih =>
    by_cases hne : c.dacnt = 0
    · rwa [playLoop_empty t v _ _ hne]
    · have hcopy : (queueTransition c.queueSlot (advanceDirect v.incDa c)).1
          = (queueTransition c.queueSlot (advanceDirect v.incDa c)).2.queueSlot := by
        obtain ⟨-, -, -, hphase, -⟩ := queueTransition_keeps c.queueSlot (advanceDirect v.incDa c)
        exact (congrArg Prod.fst (queueTransition_eq _ _)).trans (congrArg (BitVec.extractLsb' 16 10) hphase.symm)
      rw [playLoop_succ t v n _ hne, hcopy]
      exact ih (directStep_queueAligned hinc h)

theorem directGenerator_queueAligned (t : TickValues) {v : ChannelValues} (hinc : v.incDa ≤ 65536) {c : Channel}
    (h : c.queueAligned) : (directGenerator t v c).1.queueAligned := by
  unfold directGenerator
  split
  · exact h
  · exact playLoop_queueAligned hinc t.n h

theorem noiseDivider_queueAligned (t : TickValues) (ninc : Nat) {c : Channel} (h : c.queueAligned) :
    (noiseDivider t ninc c).queueAligned := by
  obtain ⟨⟨-, -, -, -, -, -, -, hwr⟩, -, hcnt, -, hphase⟩ := noiseDivider_keeps t ninc c
  exact queueAligned_congr hphase hcnt hwr h

theorem runGenerator_queueAligned (t : TickValues) {v : ChannelValues} (hinc : v.incDa ≤ 65536) {c : Channel}
    (h : c.queueAligned) : (runGenerator t v c).1.queueAligned := by
  unfold runGenerator
  cases v.gen with
  | off => exact h
  | silent => exact h
  | directAudio => exact directGenerator_queueAligned t hinc h
  | noise =>
    exact sampleLoop_keeps (f := noiseSample t v) (P := Channel.queueAligned)
      (fun _ => noiseDivider_queueAligned t v.ninc) t.n c h
  | tone =>
    exact sampleLoop_keeps (f := toneSample t v) (P := Channel.queueAligned)
      (fun _ h => queueAligned_congr rfl rfl rfl h) t.n c h

/-- `INC_DA` written out (41_phase_accumulator.md rule R100). -/
theorem incDa_eq (cfg : Config) (rate : Nat) : incDa cfg rate = cfg.clock / rate * 2 ^ 16 % 2 ^ 32 / cfg.daDivisor := by
  rw [incDa, ratio16, Nat.shiftLeft_eq]

theorem tickChip_queueAligned {cfg : Config} (n : Nat) {chip : Chip} (hinc : incDa cfg chip.rate.toNat ≤ 65536)
    {ch : Chan} (h : (chip.chan ch).queueAligned) : ((tickChip cfg n chip).chan ch).queueAligned := by
  rw [tickChip_chan]
  exact runGenerator_queueAligned _ hinc h

/-! ### Every queue through a step -/

theorem setChan_queueAligned {chip : Chip} (h : ∀ ch, (chip.chan ch).queueAligned) (c : Chan) {x : Channel}
    (hx : x.queueAligned) (ch : Chan) : ((chip.setChan c x).chan ch).queueAligned := by
  rw [chan_setChan]
  split
  · exact hx
  · exact h ch

/-- Every answer of a command keeps the queues aligned; INIT empties them at slot 0, and after SHUTDOWN the block does
not run. -/
theorem ExecAnswer.queuesAligned {i : Instr} {s t : State} {r : Result} (h : ExecAnswer i s r)
    (hs : s.queuesAligned) (hinc : incDa s.cfg s.chip.rate.toNat ≤ 65536) (ht : r = .next t) : t.queuesAligned := by
  cases h with
  | faulted | read | cfgrate | cfgstereo | wrgvol => cases ht; exact hs
  | init =>
    cases ht
    intro _ ch
    show ((resetChip s.cfg).chan ch).queueAligned
    rw [resetChip_chan]
    exact resetChannel_queueAligned _ _
  | shutdown => cases ht; exact fun hrun => nomatch hrun
  | wrreg ch idx data c r =>
    cases ht
    exact fun hrun => setChan_queueAligned (hs hrun) c (writeReg_queueAligned (hs hrun c) r data)
  | wrwave ch idx data c => cases ht; exact fun hrun => setChan_queueAligned (hs hrun) c (hs hrun c)
  | pushda ch data c =>
    cases ht
    exact fun hrun => setChan_queueAligned (hs hrun) c (queuePush_queueAligned (hs hrun c) (cellData data))
  | parameters => cases ht
  | tick n _ hrun => cases ht; exact fun _ ch => tickChip_queueAligned n.toNat hinc (hs hrun ch)

/-- Settles O55: an idle step and an illegal word leave the queues, and a command keeps them aligned by
`ExecAnswer.queuesAligned`. Only TICK needs the bound on the increment, and no case needs the ranges of `State.inv`: the
11-bit count wraps at a multiple of the 1024 slots. -/
theorem stepKeepsQueuesAligned : Obligations.StepKeepsQueuesAligned := by
  intro s t _ hs hinc h
  rw [← incDa_eq] at hinc
  obtain ⟨-, hstep⟩ | ⟨w, rest, -, ⟨-, hstep⟩ | ⟨i, -, hstep⟩⟩ := step_cases s <;> rw [hstep] at h
  · cases h
    exact hs
  · cases h
    exact hs
  · exact (exec_answer i { s with cmdIn := rest }).queuesAligned hs hinc h

/-! ### The read commands (rule R44) -/

/-- From `s`, the command raises a fault, or answers a datum and answers the same one when it is executed again. -/
def AnswersTwice (k : State → Result) (s : State) : Prop :=
  (∃ f, k s = raise f s) ∨ ∃ d, k s = .next (answer d s) ∧ k (answer d s) = .next (answer d s)

theorem AnswersTwice.whileRunning {s : State} {d : State → BitVec 16} (hd : ∀ x, d (answer x s) = d s) :
    AnswersTwice (fun x => Machine.whileRunning x (.next (answer (d x) x))) s := by
  cases hl : s.lc with
  | off => exact .inl ⟨.notRunning, whileRunning_off hl _⟩
  | run =>
    refine .inr ⟨d s, whileRunning_run hl _, (whileRunning_run (s := answer (d s) s) hl _).trans ?_⟩
    rw [hd]
    rfl

theorem AnswersTwice.withOperand {α : Type} (o : Option α) {s : State} {k : α → State → Result}
    (h : ∀ a, AnswersTwice (k a) s) : AnswersTwice (fun x => Machine.withOperand o x fun a => k a x) s := by
  cases o with
  | none => exact .inl ⟨.illegalCommand, rfl⟩
  | some a => exact h a

/-- The datum of a read is a function of the Chip State, `LC` and `FAULT`, which an answer leaves alone. -/
theorem exec_read_answersTwice {i : Instr}
    (h : i = .rdgvol ∨ i = .rdstat ∨ (∃ ch idx, i = .rdreg ch idx) ∨ ∃ ch idx, i = .rdwave ch idx) (s : State) :
    AnswersTwice (exec i) s := by
  obtain rfl | rfl | ⟨ch, idx, rfl⟩ | ⟨ch, idx, rfl⟩ := h
  · exact .whileRunning (d := fun s => s.chip.gvol.setWidth 16) fun _ => rfl
  · exact .inr ⟨statusData s.fault s.lc, rfl, rfl⟩
  · exact .withOperand _ fun c => .withOperand _ fun e =>
      .whileRunning (d := fun s => (s.chip.chan c).readEntry e) fun _ => rfl
  · exact .withOperand _ fun c => .withOperand _ fun k =>
      .whileRunning (d := fun s => (memRead (s.chip.chan c).wave k).setWidth 16) fun _ => rfl

/-- The response of a fault has its code above the 16 bits of the data (30_encoding.md rule R65). -/
theorem fault_resp_ge (f : FaultName) : 2 ^ 16 ≤ (responseWord (faultCode f) 0).toNat := by
  have hcode : (faultCode f).toNat ≠ 0 := fun h => faultCode_ne_zero f (BitVec.eq_of_toNat_eq h)
  rw [responseWord_toNat]
  omega

/-- Settles O13: a faulted read writes the FAULT code and the ports, and shows a code in its response; an executed one
writes the ports only and answers the same datum again. -/
theorem readCommandsHaveNoSideEffect : Obligations.ReadCommandsHaveNoSideEffect := by
  intro i s t u hi ht hu
  obtain ⟨f, hf⟩ | ⟨d, hfirst, hagain⟩ := exec_read_answersTwice hi s
  · rw [hf, raise_eq] at ht
    cases ht
    exact ⟨rfl, fun hresp => absurd hresp (not_lt.mpr (fault_resp_ge f))⟩
  · rw [hfirst] at ht
    cases ht
    rw [hagain] at hu
    cases hu
    exact ⟨rfl, fun _ => ⟨rfl, rfl⟩⟩

end Sys2Proof.Machine
end

section
/-! PROOF. The encoding statements (30_encoding.md): the decoder and the encoder are inverse to one another on the
well-formed commands (rules R61 to R63), masks and illegal words (rules R63, R66), the step on a decoded word (rule R60),
and the expansion of WRFREQ (rule R68). -/

namespace Sys2Proof

/-! ### A word is one of its format exactly when its fields say so (rules R61, R62) -/

theorem zeroOperand_iff (w : Word) : zeroOperand w = true ↔ w.extractLsb' 0 28 = 0 := beq_iff_eq

theorem immFormat_iff (w : Word) : immFormat w = true ↔ w.extractLsb' 24 4 = 0 := beq_iff_eq

theorem regFormat_iff (w : Word) : regFormat w = true ↔ fieldBit27 w = 0 ∧ fieldMid w = 0 := by
  simp [regFormat]

theorem formatZ_eq_iff (op : BitVec 4) (w : Word) : formatZ op = w ↔ fieldOp w = op ∧ zeroOperand w = true := by
  constructor
  · rintro rfl
    exact formatZ_fields op
  · rintro ⟨rfl, hz⟩
    exact formatZ_of_fields ((zeroOperand_iff w).mp hz)

theorem formatI_eq_iff (op : BitVec 4) (imm : BitVec 24) (w : Word) :
    formatI op imm = w ↔ fieldOp w = op ∧ immFormat w = true ∧ fieldImm w = imm := by
  constructor
  · rintro rfl
    exact formatI_fields op imm
  · rintro ⟨rfl, hi, rfl⟩
    exact formatI_of_fields ((immFormat_iff w).mp hi)

theorem formatR_eq_iff (op : BitVec 4) (ch : BitVec 3) (idx data : Byte) (w : Word) :
    formatR op ch idx data = w ↔
      fieldOp w = op ∧ regFormat w = true ∧ fieldCh w = ch ∧ fieldIdx w = idx ∧ fieldData w = data := by
  constructor
  · rintro rfl
    exact formatR_fields op ch idx data
  · rintro ⟨rfl, hr, rfl, rfl, rfl⟩
    obtain ⟨h27, hmid⟩ := (regFormat_iff w).mp hr
    exact formatR_of_fields h27 hmid

/-! ### The decoder and the encoder -/

theorem guarded_eq_some_iff (b : Bool) (v i : Instr) : guarded b v = some i ↔ b = true ∧ v = i := by
  cases b <;> simp [guarded]

theorem guarded_eq_none_iff (b : Bool) (v : Instr) : guarded b v = none ↔ ¬ b = true := by
  cases b <;> simp [guarded]

/-- By format: the fields of the word are the operands, and the ranges the decoder tests are those of `wellFormed`. -/
theorem decode_encode {i : Instr} (h : i.wellFormed = true) : decode (encode i) = some i := by
  cases i with
  | init | shutdown | rdgvol | rdstat => rfl
  | cfgrate | tick => simp [decode, encode, opcodeOf, formatI_fields, guarded_eq_some_iff]
  | cfgstereo => simpa [decode, encode, opcodeOf, formatI_fields, guarded_eq_some_iff, Instr.wellFormed] using h
  | wrgvol => simp [decode, encode, opcodeOf, formatR_fields, guarded_eq_some_iff]
  | wrreg | wrwave | pushda | rdreg | rdwave =>
    simpa [decode, encode, opcodeOf, formatR_fields, guarded_eq_some_iff, chOk, idxOk, Instr.wellFormed,
      channelInRange] using h

theorem fieldOp_of_decode {w : Word} {i : Instr} (h : decode w = some i) : fieldOp w = opcodeOf i := by
  unfold decode at h
  split at h
  case h_14 => cases h
  all_goals
    obtain ⟨-, rfl⟩ := (guarded_eq_some_iff _ _ _).mp h
    exact BitVec.eq_of_toNat_eq ‹_›

/-- Along the commands: the arm of the decoder their opcode selects tests the format of the word and the ranges of
the operands. -/
theorem wellFormed_and_encode_of_decode {w : Word} {i : Instr} (h : decode w = some i) :
    i.wellFormed = true ∧ encode i = w := by
  have hop := fieldOp_of_decode h
  cases i with
  | init | shutdown | rdgvol | rdstat =>
    simpa [decode, hop, opcodeOf, encode, formatZ_eq_iff, guarded_eq_some_iff, Instr.wellFormed] using h
  | cfgrate | cfgstereo | tick =>
    simp only [decode, hop, opcodeOf, BitVec.ofNat_eq_ofNat, BitVec.reduceToNat, guarded_eq_some_iff] at h
    obtain ⟨hfmt, ⟨⟩⟩ := h
    simpa [encode, opcodeOf, formatI_eq_iff, hop, Instr.wellFormed, and_comm] using hfmt
  | wrgvol | wrreg | wrwave | pushda | rdreg | rdwave =>
    simp only [decode, hop, opcodeOf, BitVec.ofNat_eq_ofNat, BitVec.reduceToNat, guarded_eq_some_iff] at h
    obtain ⟨hfmt, ⟨⟩⟩ := h
    simpa [encode, opcodeOf, formatR_eq_iff, hop, Instr.wellFormed, channelInRange, chOk, idxOk, and_assoc, and_comm,
      and_left_comm] using hfmt

theorem decode_eq_some_iff (w : Word) (i : Instr) : decode w = some i ↔ i.wellFormed = true ∧ encode i = w := by
  constructor
  · exact wellFormed_and_encode_of_decode
  · rintro ⟨hwf, rfl⟩
    exact decode_encode hwf

/-- Settles O56: `decode_encode`, a case per command. -/
theorem decodeOfEncodeIsTheCommand : Obligations.DecodeOfEncodeIsTheCommand := fun _ => decode_encode

/-- Settles O57: `wellFormed_and_encode_of_decode`, a case per command. -/
theorem decodedWordIsTheEncodedOne : Obligations.DecodedWordIsTheEncodedOne := fun _ _ =>
  wellFormed_and_encode_of_decode

/-! ### Masks (rule R63) -/

theorem word_eq_iff_fields (v w : Word) :
    v = w ↔ fieldOp v = fieldOp w ∧ fieldBit27 v = fieldBit27 w ∧ fieldCh v = fieldCh w ∧ fieldIdx v = fieldIdx w
      ∧ fieldMid v = fieldMid w ∧ fieldData v = fieldData w := by
  constructor
  · rintro rfl
    exact ⟨rfl, rfl, rfl, rfl, rfl, rfl⟩
  · simp only [← BitVec.toNat_inj, fieldOp, fieldBit27, fieldCh, fieldIdx, fieldMid, fieldData, BitVec.extractLsb'_toNat,
      Nat.shiftRight_eq_div_pow]
    omega

theorem masked_eq_iff (w m v : Word) :
    w &&& m = v ↔ fieldOp w &&& fieldOp m = fieldOp v ∧ fieldBit27 w &&& fieldBit27 m = fieldBit27 v
      ∧ fieldCh w &&& fieldCh m = fieldCh v ∧ fieldIdx w &&& fieldIdx m = fieldIdx v
      ∧ fieldMid w &&& fieldMid m = fieldMid v ∧ fieldData w &&& fieldData m = fieldData v := by
  simp only [word_eq_iff_fields, fieldOp, fieldBit27, fieldCh, fieldIdx, fieldMid, fieldData, BitVec.extractLsb'_and]

theorem immFormat_iff_fields (w : Word) : immFormat w = true ↔ fieldBit27 w = 0 ∧ fieldCh w = 0 := by
  simp only [immFormat_iff, ← BitVec.toNat_inj, fieldBit27, fieldCh, BitVec.extractLsb'_toNat,
    Nat.shiftRight_eq_div_pow, BitVec.ofNat_eq_ofNat, BitVec.toNat_ofNat]
  omega

theorem byte_le_one_iff (b : Byte) : b.toNat ≤ 1 ↔ b &&& 0xFE = 0 := by
  revert b
  decide

theorem fieldImm_le_one_iff (w : Word) :
    (fieldImm w).toNat ≤ 1 ↔ fieldIdx w = 0 ∧ fieldMid w = 0 ∧ fieldData w &&& 0xFE = 0 := by
  rw [← byte_le_one_iff]
  simp only [← BitVec.toNat_inj, fieldImm, fieldIdx, fieldMid, fieldData, BitVec.extractLsb'_toNat,
    Nat.shiftRight_eq_div_pow, BitVec.ofNat_eq_ofNat, BitVec.toNat_ofNat]
  omega

/-! A mask of rule R63 has all the bits of a field or none, but for the lowest bit of `CFGSTEREO`'s. -/

theorem and_ones4 (x : BitVec 4) : x &&& 15#4 = x := BitVec.and_allOnes

theorem and_ones1 (x : BitVec 1) : x &&& 1#1 = x := BitVec.and_allOnes

theorem and_ones3 (x : BitVec 3) : x &&& 7#3 = x := BitVec.and_allOnes

theorem and_ones8 (x : Byte) : x &&& 255#8 = x := BitVec.and_allOnes

theorem and_ones32 (x : Word) : x &&& 0xFFFFFFFF#32 = x := BitVec.and_allOnes

/-- Settles O58: the encoded word of a command and the masked word are both compared with the word field by field;
what is left is the same field equations in another order. -/
theorem decodeFollowsMaskAndMatch : Obligations.DecodeFollowsMaskAndMatch := by
  intro w imm ch idx data
  refine ⟨?init, ?shutdown, ?cfgrate, ?cfgstereo, ?wrgvol, ?wrreg, ?wrwave, ?pushda, ?tick, ?rdgvol, ?rdreg, ?rdwave,
    ?rdstat⟩
  case init | shutdown | rdgvol | rdstat =>
    rw [decode_eq_some_iff, and_ones32]
    exact ⟨fun ⟨_, h⟩ => h.symm, fun h => ⟨rfl, h.symm⟩⟩
  case cfgrate | cfgstereo | tick =>
    have hflag (h : fieldImm w = imm) := h ▸ fieldImm_le_one_iff w
    simp only [decode_eq_some_iff, encode, opcodeOf, formatI_eq_iff, immFormat_iff_fields, masked_eq_iff,
      Instr.wellFormed, decide_eq_true_eq]
    simp only [fieldOp, fieldBit27, fieldCh, fieldIdx, fieldMid, fieldData, fieldImm, BitVec.reduceExtractLsb',
      BitVec.ofNat_eq_ofNat, and_ones1, and_ones3, and_ones4, and_ones8, BitVec.and_zero] at hflag ⊢
    tauto
  case wrgvol | wrreg | wrwave | pushda | rdreg | rdwave =>
    simp only [decode_eq_some_iff, encode, opcodeOf, formatR_eq_iff, regFormat_iff, masked_eq_iff,
      Instr.wellFormed, channelInRange, Bool.and_eq_true, decide_eq_true_eq]
    simp only [fieldOp, fieldBit27, fieldCh, fieldIdx, fieldMid, fieldData, BitVec.reduceExtractLsb',
      BitVec.ofNat_eq_ofNat, and_ones1, and_ones3, and_ones4, and_ones8, BitVec.and_zero]
    tauto

/-! ### Illegal words (rule R66) -/

theorem bits27to8_eq_zero_iff (w : Word) :
    w.extractLsb' 8 20 = 0 ↔ regFormat w = true ∧ fieldCh w = 0 ∧ fieldIdx w = 0 := by
  simp only [regFormat_iff, ← BitVec.toNat_inj, fieldBit27, fieldCh, fieldIdx, fieldMid, BitVec.extractLsb'_toNat,
    Nat.shiftRight_eq_div_pow, BitVec.ofNat_eq_ofNat, BitVec.toNat_ofNat]
  omega

/-- Settles O59: along the arms of the decoder, an arm refuses its word where a test fails. Arm `n` is that of opcode
`n`; the last is that of the other opcodes. -/
theorem illegalWordsAreExactlyThese : Obligations.IllegalWordsAreExactlyThese := by
  intro w
  have hlt : (w.extractLsb' 28 4).toNat < 16 := (fieldOp w).isLt
  unfold decode fieldOp
  split
  case h_14 =>
    refine iff_of_true rfl (.inl ?_)
    simp only [imp_false] at *
    omega
  all_goals
    rename_i hop
    simp only [guarded_eq_none_iff, hop, Nat.reduceEqDiff, false_and, true_and, false_or, or_false, or_true]
  case h_1 | h_2 | h_10 | h_13 => exact not_congr (zeroOperand_iff w)
  case h_3 | h_9 => exact not_congr (immFormat_iff w)
  case h_4 =>
    simp only [Bool.and_eq_true, immFormat_iff, decide_eq_true_eq, not_and_or, not_le]
    rfl
  case h_5 => simp only [ne_eq, bits27to8_eq_zero_iff, Bool.and_eq_true, beq_iff_eq, and_assoc]
  case h_6 | h_7 | h_11 | h_12 =>
    simp only [Bool.and_eq_true, beq_iff_eq, regFormat_iff, chOk, idxOk, decide_eq_true_eq, not_and_or, not_le, or_assoc]
    rfl
  case h_8 =>
    have hidx : fieldIdx w = 0 ↔ (w.extractLsb' 16 8).toNat = 0 := BitVec.toNat_inj.symm
    simp only [Bool.and_eq_true, beq_iff_eq, regFormat_iff, chOk, decide_eq_true_eq, hidx, not_and_or, not_le, or_assoc]
    rfl

/-! ### The example words (section 6) -/

/-- Settles O60: the decoder computed on each word. -/
theorem specWordsDecodeAsTheSpecSays : Obligations.SpecWordsDecodeAsTheSpecSays := by
  unfold Obligations.SpecWordsDecodeAsTheSpecSays
  decide

end Sys2Proof

namespace Sys2Proof.Machine

/-! ### The step on a decoded word (rule R60) -/

/-- Settles O49: of the cases of `step_cases`, the decoded word leaves the last. -/
theorem stepRunsTheDecodedCommand : Obligations.StepRunsTheDecodedCommand := by
  intro s w rest i hin hdec
  obtain ⟨hnil, -⟩ | ⟨w', rest', hin', hstep⟩ := step_cases s
  · simp [hin] at hnil
  · obtain ⟨rfl, rfl⟩ : w = w' ∧ rest = rest' := List.cons.inj (hin.symm.trans hin')
    obtain ⟨hnone, -⟩ | ⟨i', hdec', hstep⟩ := hstep
    · simp [hdec] at hnone
    · obtain rfl : i = i' := Option.some.inj (hdec.symm.trans hdec')
      exact hstep

/-! ### The expansion of WRFREQ (rule R68) -/

theorem exec_wrreg_run {ch : BitVec 3} {c : Chan} {idx : Byte} {r : RegName} {s : State}
    (hch : ch.toNat = c.val) (hidx : writeRegOperand idx = some r) (hrun : s.lc = .run) (data : Byte) :
    exec (.wrreg ch idx data) s = .next (answer 0 (updateChannel s c fun x => x.writeReg r data)) := by
  show execWrreg ch idx data s = _
  rw [execWrreg, withOperand_some ((channelOperand_some_iff ch c).mpr hch), withOperand_some hidx, whileRunning_run hrun]

theorem execAll_cons_next {i : Instr} {s t : State} (h : exec i s = .next t) (is : List Instr) :
    execAll (i :: is) s = execAll is t := by
  rw [execAll, h]

/-- The period as a number (10_state.md rule R13). -/
theorem period_eq (c : Channel) : c.period = c.freqHi.toNat % 16 * 256 + c.freqLo.toNat := by
  have hlo := c.freqLo.isLt
  rw [Channel.period, BitVec.toNat_append, ← Nat.shiftLeft_add_eq_or_of_lt hlo, Nat.shiftLeft_eq,
    BitVec.extractLsb'_toNat]
  rfl

theorem pseudoWrfreq_of_le (ch : BitVec 3) {t : Nat} (ht : t ≤ 4095) :
    pseudoWrfreq ch t =
      some [.wrreg ch 0 (BitVec.ofNat 8 (t &&& 0xFF)), .wrreg ch 1 (BitVec.ofNat 8 (t >>> 8))] := by
  simp [pseudoWrfreq, expandIf, ht]

theorem execAll_wrfreq {ch : BitVec 3} {c : Chan} {s : State} (hch : ch.toNat = c.val) (hrun : s.lc = .run)
    (lo hi : Byte) :
    ∃ u : State, execAll [.wrreg ch 0 lo, .wrreg ch 1 hi] s = .next u
      ∧ u.chip.chan c = { s.chip.chan c with freqLo := lo, freqHi := hi }
      ∧ (∀ d, d ≠ c → u.chip.chan d = s.chip.chan d)
      ∧ u = { s with chip := { s.chip with chans := u.chip.chans }, resp := 0, sampleOut := [] } := by
  have hlo := exec_wrreg_run (idx := 0) (r := .freqLo) hch rfl hrun lo
  have hhi := exec_wrreg_run (idx := 1) (r := .freqHi)
    (s := answer 0 (updateChannel s c fun x => x.writeReg .freqLo lo)) hch rfl hrun hi
  refine ⟨_, (execAll_cons_next hlo _).trans (execAll_cons_next hhi []), ?_, fun d hd => ?_, rfl⟩
  · simp [Channel.writeReg]
  · simp [chan_setChan_other _ hd]

theorem wrfreq_bytes {t : Nat} (ht : t ≤ 4095) :
    (BitVec.ofNat 8 (t >>> 8)).toNat % 16 * 256 + (BitVec.ofNat 8 (t &&& 0xFF)).toNat = t := by
  have hmask : t &&& 0xFF = t % 2 ^ 8 := Nat.and_two_pow_sub_one_eq_mod t 8
  rw [hmask, BitVec.toNat_ofNat, BitVec.toNat_ofNat, Nat.shiftRight_eq_div_pow]
  omega

/-- Settles O14: two register writes by `execAll_wrfreq`, and the period read back from their bytes. -/
theorem wrfreqSetsThePeriod : Obligations.WrfreqSetsThePeriod := by
  intro ch c t s hch ht hrun
  obtain ⟨u, hexec, hchan, hother, hframe⟩ :=
    execAll_wrfreq hch hrun (BitVec.ofNat 8 (t &&& 0xFF)) (BitVec.ofNat 8 (t >>> 8))
  refine ⟨_, u, pseudoWrfreq_of_le ch ht, hexec, ?_, ?_, ?_, hother, hframe⟩
  · rw [hchan, wrfreq_bytes ht]
  · rw [period_eq, hchan, wrfreq_bytes ht]
  · rw [hchan]

end Sys2Proof.Machine
end

section
/-! PROOF. The register bank statements (40_register_bank.md): the volume (rules R81, R85), the byte registers (R82, R86),
the waveform table (R83, R87) and the write side of the direct-audio queue (R84), each with its faults (30_encoding.md rule
R66, 60_exceptions.md rules R223, R226). -/

namespace Sys2Proof.Machine

/-! ### The faults of a command with operands (rules R66, R223) -/

theorem whileRunning_off_faulted {s : State} (h : s.lc = .off) (k : Result) :
    whileRunning s k = .next (faulted 2 s) :=
  (whileRunning_off h k).trans (raise_faulted .notRunning s)

/-- What the rest of the command answers for every operand, the command answers for an operand in range. -/
theorem withOperand_eq_of_forall {α : Type} {o : Option α} {s : State} {k : α → Result} {r : Result} (ho : o ≠ none)
    (hk : ∀ a, k a = r) : withOperand o s k = r := by
  obtain ⟨a, ha⟩ := Option.ne_none_iff_exists'.mp ho
  rw [withOperand_some ha, hk]

theorem withOperand_illegal {α : Type} {o : Option α} {s : State} {k : α → Result}
    (h : o = none ∨ ∀ a, k a = .next (faulted 1 s)) : withOperand o s k = .next (faulted 1 s) := by
  obtain ⟨a, ha, heq⟩ | ⟨-, heq⟩ := withOperand_cases o s k
  · rw [heq]
    exact h.resolve_left (by simp [ha]) a
  · rw [heq]
    exact raise_faulted .illegalCommand s

theorem channelOperand_ne_none {ch : BitVec 3} (h : ch.toNat ≤ 5) : channelOperand ch ≠ none :=
  mt (channelOperand_none_iff ch).mp (by omega)

section
variable {α : Type} {ch : BitVec 3} {o : Option α} {s : State}

/-! A command with a channel and an index operand, by its shape (`o` is the index operand as the command reads it). -/

theorem bankCommand_run {c : Chan} {a : α} (hch : ch.toNat = c.val) (ho : o = some a) (hrun : s.lc = .run)
    (k : Chan → α → Result) :
    (withOperand (channelOperand ch) s fun c => withOperand o s fun a => whileRunning s (k c a)) = k c a := by
  rw [withOperand_some ((channelOperand_some_iff ch c).mpr hch), withOperand_some ho, whileRunning_run hrun]

theorem bankCommand_off (hch : ch.toNat ≤ 5) (ho : o ≠ none) (hoff : s.lc = .off) (k : Chan → α → Result) :
    (withOperand (channelOperand ch) s fun c => withOperand o s fun a => whileRunning s (k c a)) =
      .next (faulted 2 s) :=
  withOperand_eq_of_forall (channelOperand_ne_none hch) fun _ =>
    withOperand_eq_of_forall ho fun _ => whileRunning_off_faulted hoff _

theorem bankCommand_illegal (hbad : 5 < ch.toNat ∨ o = none) (k : Chan → α → Result) :
    (withOperand (channelOperand ch) s fun c => withOperand o s fun a => whileRunning s (k c a)) =
      .next (faulted 1 s) :=
  withOperand_illegal (hbad.imp (channelOperand_none_iff ch).mpr fun ho _ => withOperand_illegal (.inl ho))

end

/-! ### The answer of an executed command (30_encoding.md rule R65) -/

theorem responseWord_ok (d : BitVec 16) : responseWord 0 d = BitVec.ofNat 32 d.toNat := by
  apply BitVec.eq_of_toNat_eq
  have hd : d.toNat < 2 ^ 32 := d.isLt.trans (by decide)
  rw [responseWord_toNat, BitVec.toNat_ofNat, Nat.mod_eq_of_lt hd]
  simp

/-- The answer of a read, in the terms of the statements. -/
theorem answer_eq (d : BitVec 16) (s : State) :
    answer d s = { s with resp := BitVec.ofNat 32 d.toNat, sampleOut := [] } := by
  rw [answer, responseWord_ok]

/-- A command that changes one channel: the frame around the channel, and the channel itself. -/
theorem frame_of_updateChannel {r : Result} {s : State} {c : Chan} {f : Channel → Channel}
    (h : r = .next (answer 0 (updateChannel s c f))) :
    ∃ t : State, r = .next t
      ∧ t = { s with chip := { s.chip with chans := t.chip.chans }, resp := 0, sampleOut := [] }
      ∧ (∀ d, d ≠ c → t.chip.chan d = s.chip.chan d)
      ∧ t.chip.chan c = f (s.chip.chan c) :=
  ⟨_, h, rfl, fun _ hd => chan_setChan_other _ hd _, chan_setChan_same _ _ _⟩

/-! ### The volume (rules R81, R85) -/

/-- Settles O6: in RUN the answer of the command, in OFF the fault of the lifecycle test. -/
theorem wrgvolSetsOnlyGlobalVolume : Obligations.WrgvolSetsOnlyGlobalVolume := fun _ _ =>
  ⟨fun hrun => whileRunning_run hrun _, fun hoff => whileRunning_off_faulted hoff _⟩

/-- Settles O10: the datum of the answer is the volume, and widening keeps its number. -/
theorem rdgvolAnswersGlobalVolume : Obligations.RdgvolAnswersGlobalVolume := by
  intro s
  refine ⟨fun hrun => ?_, fun hoff => whileRunning_off_faulted hoff _⟩
  have hexec : exec .rdgvol s = .next (answer (s.chip.gvol.setWidth 16) s) := whileRunning_run hrun _
  rw [hexec, answer_eq, BitVec.toNat_setWidth_of_le (by decide)]

/-! ### The byte registers (rules R82, R86) -/

/-- The index of a byte register (30_encoding.md rule R64). -/
def RegName.index : RegName → Nat
  | .freqLo => 0
  | .freqHi => 1
  | .ctrl => 2
  | .bal => 3
  | .noise => 4
  | .widx => 5

/-- The index of a bank entry (30_encoding.md rule R64). -/
def BankEntry.index : BankEntry → Nat
  | .byte r => r.index
  | .count => 6

/-- The registers and the count as numbers, in the order of RDREG's indices (30_encoding.md rule R64). -/
abbrev Channel.entries (c : Channel) : List Nat := c.bank.map BitVec.toNat ++ [c.dacnt.toNat]

theorem index_of_writeRegOperand {idx : Byte} {r : RegName} (h : writeRegOperand idx = some r) :
    idx.toNat = r.index := by
  unfold writeRegOperand at h
  split at h <;> cases h <;> assumption

theorem index_of_readRegOperand {idx : Byte} {e : BankEntry} (h : readRegOperand idx = some e) :
    idx.toNat = e.index := by
  unfold readRegOperand at h
  split at h
  · next hcount =>
    cases h
    exact hcount
  · obtain ⟨r, hr, rfl⟩ := Option.map_eq_some_iff.mp h
    exact index_of_writeRegOperand hr

theorem writeReg_bank (c : Channel) (r : RegName) (v : Byte) : (c.writeReg r v).bank = c.bank.set r.index v := by
  cases r <;> rfl

theorem writeReg_frame (c : Channel) (r : RegName) (v : Byte) :
    c.writeReg r v = { c with
      freqLo := (c.writeReg r v).freqLo, freqHi := (c.writeReg r v).freqHi, ctrl := (c.writeReg r v).ctrl
      bal := (c.writeReg r v).bal, noise := (c.writeReg r v).noise, widx := (c.writeReg r v).widx } := by
  cases r <;> rfl

theorem entries_getElem?_index (c : Channel) (e : BankEntry) : c.entries[e.index]? = some (c.readEntry e).toNat := by
  cases e with
  | byte r =>
    have hwiden : (c.readEntry (.byte r)).toNat = (c.readReg r).toNat := BitVec.toNat_setWidth_of_le (by decide)
    rw [hwiden]
    cases r <;> rfl
  | count => exact congrArg some (BitVec.toNat_setWidth_of_le (by decide)).symm

theorem exec_rdreg_run {ch : BitVec 3} {c : Chan} {idx : Byte} {e : BankEntry} {s : State} (hch : ch.toNat = c.val)
    (hidx : readRegOperand idx = some e) (hrun : s.lc = .run) :
    exec (.rdreg ch idx) s = .next (answer ((s.chip.chan c).readEntry e) s) :=
  bankCommand_run hch hidx hrun fun c e => .next (answer ((s.chip.chan c).readEntry e) s)

/-- Settles O7: an index in range names a register, whose write replaces that entry of the bank and no other element. -/
theorem wrregStoresWholeByte : Obligations.WrregStoresWholeByte := by
  intro ch idx data s
  refine ⟨fun c hch hidx hrun => ?_, fun hch hidx hoff => ?_, fun hbad => ?_⟩
  · obtain ⟨r, hr⟩ := Option.ne_none_iff_exists'.mp (mt (writeRegOperand_none_iff idx).mp (by omega))
    obtain ⟨t, hexec, hframe, hother, hchan⟩ := frame_of_updateChannel (exec_wrreg_run hch hr hrun data)
    refine ⟨t, hexec, hframe, hother, ?_, ?_⟩
    · rw [hchan, index_of_writeRegOperand hr, writeReg_bank]
    · rw [hchan]
      exact writeReg_frame _ r data
  · exact bankCommand_off hch (mt (writeRegOperand_none_iff idx).mp (by omega)) hoff _
  · exact bankCommand_illegal (hbad.imp_right (writeRegOperand_none_iff idx).mpr) _

/-- Settles O11: an index that has an entry is an operand in range, and the entry it names holds the number the list has
there. -/
theorem rdregAnswersBankEntry : Obligations.RdregAnswersBankEntry := by
  intro ch idx s
  refine ⟨fun c v hch hrun hv => ?_, fun hch hidx hoff => ?_, fun hbad => ?_⟩
  · have hidx : idx.toNat < 7 := (List.getElem?_eq_some_iff.mp hv).1
    obtain ⟨e, he⟩ := Option.ne_none_iff_exists'.mp (mt (readRegOperand_none_iff idx).mp (by omega))
    have hentry := entries_getElem?_index (s.chip.chan c) e
    rw [← index_of_readRegOperand he] at hentry
    obtain rfl : v = ((s.chip.chan c).readEntry e).toNat := Option.some.inj (hv.symm.trans hentry)
    rw [exec_rdreg_run hch he hrun, answer_eq]
  · exact bankCommand_off hch (mt (readRegOperand_none_iff idx).mp (by omega)) hoff _
  · exact bankCommand_illegal (hbad.imp_right (readRegOperand_none_iff idx).mpr) _

/-! ### The waveform table (rules R83, R87) -/

theorem cellData_eq (data : Byte) : cellData data = BitVec.ofNat 5 (data.toNat % 32) := by
  apply BitVec.eq_of_toNat_eq
  simp [cellData, BitVec.extractLsb'_toNat]

theorem exec_wrwave_run {ch : BitVec 3} {c : Chan} {idx : Byte} {k : Fin 32} {s : State} (hch : ch.toNat = c.val)
    (hidx : idx.toNat = k.val) (hrun : s.lc = .run) (data : Byte) :
    exec (.wrwave ch idx data) s =
      .next (answer 0 (updateChannel s c fun x => { x with wave := memWrite x.wave k (cellData data) })) :=
  bankCommand_run hch ((waveOperand_some_iff idx k).mpr hidx) hrun fun c k =>
    .next (answer 0 (updateChannel s c fun x => { x with wave := memWrite x.wave k (cellData data) }))

theorem exec_rdwave_run {ch : BitVec 3} {c : Chan} {idx : Byte} {k : Fin 32} {s : State} (hch : ch.toNat = c.val)
    (hidx : idx.toNat = k.val) (hrun : s.lc = .run) :
    exec (.rdwave ch idx) s = .next (answer ((memRead (s.chip.chan c).wave k).setWidth 16) s) :=
  bankCommand_run hch ((waveOperand_some_iff idx k).mpr hidx) hrun fun c k =>
    .next (answer ((memRead (s.chip.chan c).wave k).setWidth 16) s)

/-- Settles O8: read after write on the channel's table, which is in canonical form. -/
theorem wrwaveStoresLowFiveBits : Obligations.WrwaveStoresLowFiveBits := by
  intro ch idx data s
  refine ⟨fun c hch hidx hrun hrange => ?_, fun hch hidx hoff => ?_, fun hbad => ?_⟩
  · obtain ⟨-, -, -, hwave, -⟩ := hrange
    obtain ⟨t, hexec, hframe, hother, hchan⟩ :=
      frame_of_updateChannel (exec_wrwave_run (k := ⟨idx.toNat, Nat.lt_succ_of_le hidx⟩) hch rfl hrun data)
    refine ⟨t, hexec, hframe, hother, ?_, fun i => ?_⟩
    · rw [hchan]
    · rw [hchan, ← cellData_eq]
      exact memRead_memWrite_wf hwave idx.toNat i (cellData data)
  · exact bankCommand_off hch (mt (waveOperand_none_iff idx).mp (by omega)) hoff _
  · exact bankCommand_illegal (hbad.imp_right (waveOperand_none_iff idx).mpr) _

/-- Settles O12: the datum of the answer is the cell, and widening keeps its number. -/
theorem rdwaveAnswersTableCell : Obligations.RdwaveAnswersTableCell := by
  intro ch idx s
  refine ⟨fun c hch hidx hrun => ?_, fun hch hidx hoff => ?_, fun hbad => ?_⟩
  · rw [exec_rdwave_run (k := ⟨idx.toNat, Nat.lt_succ_of_le hidx⟩) hch rfl hrun, answer_eq,
      BitVec.toNat_setWidth_of_le (by decide)]
  · exact bankCommand_off hch (mt (waveOperand_none_iff idx).mp (by omega)) hoff _
  · exact bankCommand_illegal (hbad.imp_right (waveOperand_none_iff idx).mpr) _

/-! ### The write side of the queue (rules R84, R226) -/

theorem exec_pushda_room {ch : BitVec 3} {c : Chan} {s : State} (hch : ch.toNat = c.val) (hrun : s.lc = .run)
    (hroom : (s.chip.chan c).dacnt ≠ 1024) (data : Byte) :
    exec (.pushda ch data) s = .next (answer 0 (updateChannel s c (queuePush (cellData data)))) := by
  show execPushda ch data s = _
  rw [execPushda, withOperand_some ((channelOperand_some_iff ch c).mpr hch), whileRunning_run hrun, if_neg hroom]

theorem exec_pushda_full {ch : BitVec 3} {c : Chan} {s : State} (hch : ch.toNat = c.val) (hrun : s.lc = .run)
    (hfull : (s.chip.chan c).dacnt = 1024) (data : Byte) : exec (.pushda ch data) s = raise .queueOverflow s := by
  show execPushda ch data s = _
  rw [execPushda, withOperand_some ((channelOperand_some_iff ch c).mpr hch), whileRunning_run hrun, if_pos hfull]

/-- Settles O9: with room in the queue, read after write at the write pointer, and a count below 1024, which does not
wrap. -/
theorem pushdaAppendsOneCell : Obligations.PushdaAppendsOneCell := by
  intro ch data s
  refine ⟨fun c hch hrun hrange hroom => ?_, fun c hch hrun hfull => ?_, fun hch hoff => ?_, fun hbad => ?_⟩
  · obtain ⟨-, -, hcount, -, hdaq⟩ := hrange
    obtain ⟨t, hexec, hframe, hother, hchan⟩ := frame_of_updateChannel (exec_pushda_room hch hrun hroom data)
    refine ⟨t, hexec, hframe, hother, ?_, fun i => ?_, ?_, ?_⟩ <;> rw [hchan]
    · rfl
    · rw [← cellData_eq]
      exact memRead_memWrite_wf hdaq _ i (cellData data)
    · exact BitVec.toNat_add _ _
    · rw [queuePush_dacnt]
      bv_omega
  · exact (exec_pushda_full hch hrun hfull data).trans (raise_faulted .queueOverflow s)
  · exact withOperand_eq_of_forall (channelOperand_ne_none hch) fun _ => whileRunning_off_faulted hoff _
  · exact withOperand_illegal (.inl ((channelOperand_none_iff ch).mpr hbad))

end Sys2Proof.Machine
end

section
/-! PROOF. The phase accumulator statements (41_phase_accumulator.md): the two advances (rules R101, R102), the tone
generator over a tick (R100, R104, R116 to R119), and the direct-audio player over a tick (R103, R130 to R136). -/

namespace Sys2Proof.Machine

/-! ### The advances (rules R101, R102) -/

theorem wavePhaseAfter_toNat (inc : Nat) (phase : Word) :
    (wavePhaseAfter inc phase).toNat = (phase.toNat + inc) % 2 ^ 21 := by
  have hmask : (phase.toNat + inc) &&& 0x1FFFFF = (phase.toNat + inc) % 2 ^ 21 :=
    Nat.and_two_pow_sub_one_eq_mod _ 21
  rw [wavePhaseAfter, hmask, BitVec.toNat_ofNat]
  omega

/-- Settles O36: each mask is one less than a power of two, and both widths fit the 32 bits of a phase. -/
theorem phaseAdvancesWrapAtTheirWidth : Obligations.PhaseAdvancesWrapAtTheirWidth := fun inc phase =>
  ⟨wavePhaseAfter_toNat inc phase, directPhaseAfter_toNat inc phase⟩

/-- A phase that gains `inc` modulo `M` at every pass of `f` has gained `p * inc` after `p` passes. -/
theorem iterate_phase {α : Type} {f : α → α} {phase : α → Nat} {inc M : Nat}
    (hf : ∀ x, phase (f x) = (phase x + inc) % M) {x : α} (hx : phase x < M) (p : Nat) :
    phase (f^[p] x) = (phase x + p * inc) % M := by
  induction p with
  | zero => simp [Nat.mod_eq_of_lt hx]
  | succ p ih => rw [Function.iterate_succ_apply', hf, ih, Nat.mod_add_mod, add_assoc, Nat.succ_mul]

/-! ### A channel in a tick -/

/-- The chip-level values of a tick of `n` samples from `s` (45_balance_mixer.md rule R171). -/
abbrev State.valuesAt (s : State) (n : Nat) : TickValues := tickValues s.cfg n s.chip

/-- The values of channel `ch` in a tick of `n` samples from `s` (45_balance_mixer.md rule R171). -/
abbrev State.voice (s : State) (n : Nat) (ch : Chan) : ChannelValues :=
  channelValues (s.valuesAt n) s.chip.gvol ch (s.chip.chan ch)

theorem incW_eq (cfg : Config) (rate period : Nat) :
    incW cfg rate period = cfg.clock / rate * 2 ^ 16 % 2 ^ 32 / period := by
  rw [incW, ratio16, Nat.shiftLeft_eq]

/-- A tick that answers a next state leaves each channel as its own generator leaves it. -/
theorem chan_of_exec_tick {n : BitVec 24} {s t : State} (hready : s.tickReady n) (h : exec (.tick n) s = .next t)
    (ch : Chan) :
    t.chip.chan ch = (runGenerator (s.valuesAt n.toNat) (s.voice n.toNat ch) (s.chip.chan ch)).1 := by
  rw [exec_tick_of_ready hready] at h
  cases h
  exact tickChip_chan s.cfg n.toNat s.chip ch

theorem runGenerator_of_tone {v : ChannelValues} (h : v.gen = .tone) (t : TickValues) (c : Channel) :
    runGenerator t v c = sampleLoop (toneSample t v) t.n c := by
  rw [runGenerator, h]
  rfl

theorem runGenerator_of_directAudio {v : ChannelValues} (h : v.gen = .directAudio) (t : TickValues) (c : Channel) :
    runGenerator t v c = directGenerator t v c := by
  rw [runGenerator, h]

/-! ### The scratch cells of one sample (45_balance_mixer.md rules R176, R177) -/

/-- Cell `i` of a loop whose samples have `k` cells each is a cell of sample `i / k`. -/
theorem sampleLoop_getElem? {f : Channel → Channel × List Byte} {k : Nat} (hf : ∀ c, (f c).2.length = k) {n i : Nat}
    (hi : i < n * k) (c : Channel) :
    (sampleLoop f n c).2[i]? = (f ((fun c => (f c).1)^[i / k] c)).2[i % k]? := by
  induction n generalizing i c with
  | zero => simp at hi
  | succ n ih =>
    rw [sampleLoop_succ]
    by_cases hfirst : i < k
    · rw [List.getElem?_append_left (by rwa [hf]), Nat.div_eq_of_lt hfirst, Nat.mod_eq_of_lt hfirst,
        Function.iterate_zero_apply]
    · have hk : 0 < k := Nat.pos_of_mul_pos_left (Nat.zero_lt_of_lt hi)
      have hle : k ≤ i := not_lt.mp hfirst
      have hrest : i - k < n * k := by rw [Nat.succ_mul] at hi; omega
      rw [List.getElem?_append_right (by rwa [hf]), hf, ih hrest, ← Function.iterate_succ_apply,
        Nat.div_eq_sub_div hk hle, ← Nat.mod_eq_sub_mod hle]

theorem silence_getElem? {t : TickValues} {count i : Nat} (hi : i < count * slotsOf t.stereo) :
    (silence t count)[i]? = some 0 := by
  rw [silence, List.getElem?_replicate, if_pos hi]

theorem leftNibble_eq (b : Byte) : leftNibble b = b.toNat / 16 := by
  have hb := b.isLt
  rw [leftNibble, BitVec.extractLsb'_toNat, Nat.shiftRight_eq_div_pow]
  omega

theorem rightNibble_eq (b : Byte) : rightNibble b = b.toNat % 16 := BitVec.extractLsb'_toNat 0 4 b

theorem vol_eq (c : Channel) : c.vol = c.ctrl.toNat % 32 := BitVec.extractLsb'_toNat 0 5 c.ctrl

/-- The cell of a sample that stands at index `i` of the tick's cells is scaled by the balance of that cell's slot. -/
theorem emit_getElem?_slot (s : State) (n : Nat) (ch : Chan) (x : Int) (i : Nat) :
    (emit (s.valuesAt n) (s.voice n ch) x)[i % slotsOf s.chip.stereo]? =
      some (scaledCell s.cfg.divRound x (s.slotBalance ch i)) := by
  simp only [emit, channelValues, sideBalance, leftNibble_eq, rightNibble_eq, vol_eq, State.slotBalance, slotsOf]
  cases hst : s.chip.stereo with
  | false => simp [tickValues, hst, Nat.mod_one]
  | true =>
    obtain hi | hi := Nat.mod_two_eq_zero_or_one i <;> simp [tickValues, hst, hi]

/-- Cell `i` of a loop that emits one value per sample, the value depending on the channel before the sample. -/
theorem sampleLoop_emit_cell {s : State} {n : Nat} {ch : Chan} {f : Channel → Channel × List Byte}
    {value : Channel → Int} (hf : ∀ c, (f c).2 = emit (s.valuesAt n) (s.voice n ch) (value c)) {m i : Nat}
    (hi : i < m * slotsOf s.chip.stereo) (c : Channel) :
    (sampleLoop f m c).2[i]? = some (scaledCell s.cfg.divRound
      (value ((fun c => (f c).1)^[i / slotsOf s.chip.stereo] c)) (s.slotBalance ch i)) := by
  have hlen (c : Channel) : (f c).2.length = slotsOf s.chip.stereo := by
    rw [hf]
    exact emit_length _ _ _
  rw [sampleLoop_getElem? hlen hi, hf, emit_getElem?_slot]

/-! ### The tone generator over a tick (rules R100, R116 to R119) -/

/-- A tone tick writes the wave phase and `WIDX`, and no other element (rule R105). -/
theorem advanceWave_iterate_frame (inc p : Nat) (c : Channel) :
    ∃ phase idx, (advanceWave inc)^[p] c = { c with wphase := phase, widx := idx } := by
  refine Function.Iterate.rec (fun d : Channel => ∃ phase idx, d = { c with wphase := phase, widx := idx })
    ⟨c.wphase, c.widx, rfl⟩ ?_ p
  rintro _ ⟨phase, idx, rfl⟩
  exact ⟨_, _, rfl⟩

theorem advanceWave_iterate_wphase (inc p : Nat) {c : Channel} (h : c.wphase.toNat < 2 ^ 21) :
    ((advanceWave inc)^[p] c).wphase.toNat = (c.wphase.toNat + p * inc) % 2 ^ 21 :=
  iterate_phase (phase := fun c : Channel => c.wphase.toNat) (fun c => wavePhaseAfter_toNat inc c.wphase) h p

/-- `WIDX` is written back at every advance, so it is the index of the last phase (rule R118). -/
theorem advanceWave_iterate_widx (inc p : Nat) (c : Channel) :
    ((advanceWave inc)^[p] c).widx.toNat =
      if p = 0 then c.widx.toNat else ((advanceWave inc)^[p] c).wphase.toNat / 2 ^ 16 := by
  cases p with
  | zero => rfl
  | succ p =>
    rw [Function.iterate_succ_apply', if_neg p.succ_ne_zero, advanceWave_widx, advanceWave_wphase,
      BitVec.extractLsb'_toNat, Nat.shiftRight_eq_div_pow]
    have hlt := wavePhaseAfter_lt inc ((advanceWave inc)^[p] c).wphase
    omega

theorem waveIndex_toNat (c : Channel) : c.waveIndex.toNat = c.wphase.toNat / 2 ^ 16 % 32 := by
  rw [Channel.waveIndex, BitVec.extractLsb'_toNat, Nat.shiftRight_eq_div_pow]

/-- The table index of sample `p`: that of the phase after `p` advances (rules R104, R116). -/
theorem advanceWave_iterate_waveIndex (inc p : Nat) {c : Channel} (h : c.wphase.toNat < 2 ^ 21) :
    ((advanceWave inc)^[p] c).waveIndex.toNat = (c.wphase.toNat + p * inc) / 2 ^ 16 % 32 := by
  rw [waveIndex_toNat, advanceWave_iterate_wphase inc p h]
  omega

theorem voice_incW (s : State) (n : Nat) (ch : Chan) :
    (s.voice n ch).incW = s.cfg.clock / s.chip.rate.toNat * 2 ^ 16 % 2 ^ 32
      / ((s.chip.chan ch).freqHi.toNat % 16 * 256 + (s.chip.chan ch).freqLo.toNat) := by
  rw [← period_eq]
  exact incW_eq _ _ _

/-- Settles O20: the channel after the tick is that of N advances, whose phase is closed by `iterate_phase`. -/
theorem toneTickAdvancesWavePhase : Obligations.ToneTickAdvancesWavePhase := by
  intro n s t ch hready ⟨hphase, _⟩ hexec hsel
  have hchan : t.chip.chan ch = (advanceWave (s.voice n.toNat ch).incW)^[n.toNat] (s.chip.chan ch) := by
    rw [chan_of_exec_tick hready hexec, runGenerator_of_tone hsel]
    exact sampleLoop_fst _ _ _
  refine ⟨?_, ?_, ?_⟩
  · obtain ⟨phase, idx, hframe⟩ := advanceWave_iterate_frame (s.voice n.toNat ch).incW n.toNat (s.chip.chan ch)
    rw [hchan, hframe]
  · rw [hchan, ← voice_incW s n.toNat ch]
    exact advanceWave_iterate_wphase _ _ hphase
  · rw [hchan, advanceWave_iterate_widx]
    simp only [BitVec.toNat_eq]
    rfl

/-- The cells of a tone tick: that of sample `p` is the table cell at the index after `p` advances (rule R116). -/
theorem toneSample_cell {s : State} {n i : Nat} {ch : Chan} (hphase : (s.chip.chan ch).wphase.toNat < 2 ^ 21)
    (hi : i < n * slotsOf s.chip.stereo) :
    (sampleLoop (toneSample (s.valuesAt n) (s.voice n ch)) n (s.chip.chan ch)).2[i]? =
      some (scaledCell s.cfg.divRound (center (memRead (s.chip.chan ch).wave
        (((s.chip.chan ch).wphase.toNat + i / slotsOf s.chip.stereo * (s.voice n ch).incW) / 2 ^ 16 % 32)))
        (s.slotBalance ch i)) := by
  obtain ⟨phase, idx, hframe⟩ :=
    advanceWave_iterate_frame (s.voice n ch).incW (i / slotsOf s.chip.stereo) (s.chip.chan ch)
  have hwave : ((advanceWave (s.voice n ch).incW)^[i / slotsOf s.chip.stereo] (s.chip.chan ch)).wave =
      (s.chip.chan ch).wave := by rw [hframe]
  rw [← advanceWave_iterate_waveIndex (s.voice n ch).incW _ hphase, ← hwave]
  exact sampleLoop_emit_cell (value := fun c => center (memRead c.wave c.waveIndex.toNat)) (fun _ => rfl) hi _

/-- Settles O21: cell `i` belongs to sample `i / SLOTS`, whose channel has made that many advances and has the table
unchanged. -/
theorem toneCellsFollowTheTable : Obligations.ToneCellsFollowTheTable := by
  intro n s ch ⟨hphase, _⟩ hsel i hi
  have hcells : s.channelCells n ch = (sampleLoop (toneSample (s.valuesAt n) (s.voice n ch)) n (s.chip.chan ch)).2 :=
    congrArg Prod.snd (runGenerator_of_tone hsel _ _)
  rw [hcells, ← voice_incW s n ch]
  exact toneSample_cell hphase hi

/-! ### The direct-audio player, one sample (43_direct_audio.md rules R132 to R134) -/

/-- The player's state after one sample, where its working copy is the slot of the phase. -/
def directStep (inc : Nat) (c : Channel) : Channel := (queueTransition c.queueSlot (advanceDirect inc c)).2

/-- One sample of the player while the count is above 0: the cell at the slot before the advance, then the advance. -/
def directSample (t : TickValues) (v : ChannelValues) (c : Channel) : Channel × List Byte :=
  (directStep v.incDa c, emit t v (center (memRead c.daq c.queueSlot.toNat)))

theorem directStep_eq (inc : Nat) (c : Channel) :
    directStep inc c = { c with
      daphase := directPhaseAfter inc c.daphase
      dacnt := if (advanceDirect inc c).queueSlot = c.queueSlot then c.dacnt else c.dacnt - 1 } := by
  rw [directStep, queueTransition_eq]
  dsimp only
  split <;> rfl

theorem directStep_queueSlot (inc : Nat) (c : Channel) :
    (directStep inc c).queueSlot = (advanceDirect inc c).queueSlot := by
  rw [directStep_eq]
  rfl

/-- The working copy after a sample is the slot of the new phase again. -/
theorem playLoop_succ_directSample (t : TickValues) (v : ChannelValues) (n : Nat) {c : Channel} (h : c.dacnt ≠ 0) :
    playLoop t v (n + 1) c.queueSlot c =
      ((playLoop t v n (directStep v.incDa c).queueSlot (directStep v.incDa c)).1,
        (directSample t v c).2 ++ (playLoop t v n (directStep v.incDa c).queueSlot (directStep v.incDa c)).2) := by
  have hcopy : (queueTransition c.queueSlot (advanceDirect v.incDa c)).1 = (directStep v.incDa c).queueSlot := by
    rw [queueTransition_eq, directStep_queueSlot]
  rw [playLoop_succ t v n _ h, hcopy]
  rfl

/-! ### The direct-audio player over a tick (rules R133 to R136) -/

/-- Of `n` samples the player plays `m`: the count is above 0 before each of them, and 0 after them if `m` is less than
`n`. -/
def Plays (inc n : Nat) (c : Channel) (m : Nat) : Prop :=
  m ≤ n ∧ (∀ p < m, ((directStep inc)^[p] c).dacnt ≠ 0) ∧ (m < n → ((directStep inc)^[m] c).dacnt = 0)

theorem Plays.succ {inc n m : Nat} {c : Channel} (hc : c.dacnt ≠ 0) (h : Plays inc n (directStep inc c) m) :
    Plays inc (n + 1) c (m + 1) := by
  obtain ⟨hle, hplays, hend⟩ := h
  refine ⟨Nat.succ_le_succ hle, fun p hp => ?_, fun hlt => hend (Nat.lt_of_succ_lt_succ hlt)⟩
  cases p with
  | zero => exact hc
  | succ p => exact hplays p (Nat.lt_of_succ_lt_succ hp)

/-- The player is a loop over the samples it plays, then silence. -/
theorem playLoop_eq_sampleLoop (t : TickValues) (v : ChannelValues) (n : Nat) (c : Channel) :
    ∃ m, Plays v.incDa n c m ∧ playLoop t v n c.queueSlot c =
      ((sampleLoop (directSample t v) m c).1, (sampleLoop (directSample t v) m c).2 ++ silence t (n - m)) := by
  induction n generalizing c with
  | zero => exact ⟨0, ⟨le_rfl, by simp, by simp⟩, by simp [playLoop_zero, sampleLoop_zero, silence]⟩
  | succ n ih =>
    by_cases hc : c.dacnt = 0
    · refine ⟨0, ⟨Nat.zero_le _, by simp, fun _ => hc⟩, ?_⟩
      rw [playLoop_empty t v _ _ hc]
      rfl
    · obtain ⟨m, hm, heq⟩ := ih (directStep v.incDa c)
      refine ⟨m + 1, hm.succ hc, ?_⟩
      rw [playLoop_succ_directSample t v n hc, heq, sampleLoop_succ, List.append_assoc, Nat.add_sub_add_right]
      rfl

/-- A sample played writes the direct-audio phase and the count, and no other element (rule R105). -/
theorem directStep_iterate_frame (inc p : Nat) (c : Channel) :
    ∃ phase count, (directStep inc)^[p] c = { c with daphase := phase, dacnt := count } := by
  refine Function.Iterate.rec (fun d : Channel => ∃ phase count, d = { c with daphase := phase, dacnt := count })
    ⟨c.daphase, c.dacnt, rfl⟩ ?_ p
  rintro _ ⟨phase, count, rfl⟩
  exact ⟨_, _, directStep_eq _ _⟩

theorem directStep_iterate_daphase (inc p : Nat) {c : Channel} (h : c.daphase.toNat < 2 ^ 26) :
    ((directStep inc)^[p] c).daphase.toNat = (c.daphase.toNat + p * inc) % 2 ^ 26 := by
  refine iterate_phase (phase := fun c : Channel => c.daphase.toNat) (fun c => ?_) h p
  rw [directStep_eq]
  exact directPhaseAfter_toNat inc c.daphase

theorem directStep_iterate_queueSlot (inc p : Nat) {c : Channel} (h : c.daphase.toNat < 2 ^ 26) :
    ((directStep inc)^[p] c).queueSlot.toNat = slotAfter c.daphase.toNat inc p := by
  rw [queueSlot_toNat, directStep_iterate_daphase inc p h, slotAfter]
  omega

/-! ### The count against the slots crossed (rule R134) -/

theorem slotsCrossed_succ (phase inc p : Nat) :
    slotsCrossed phase inc (p + 1) =
      slotsCrossed phase inc p + if slotAfter phase inc (p + 1) = slotAfter phase inc p then 0 else 1 := by
  rw [slotsCrossed, slotsCrossed, List.range_succ, List.filter_append, List.length_append]
  split <;> simp [*]

/-- An advance costs one of the count exactly where it changes the slot. -/
theorem directStep_dacnt {inc : Nat} {c : Channel} (h : c.dacnt ≠ 0) :
    (directStep inc c).dacnt.toNat + (if (directStep inc c).queueSlot.toNat = c.queueSlot.toNat then 0 else 1) =
      c.dacnt.toNat := by
  simp only [directStep_queueSlot, ← BitVec.toNat_eq]
  rw [directStep_eq]
  dsimp only
  split
  · rfl
  · bv_omega

theorem dacnt_add_slotsCrossed {inc m : Nat} {c : Channel} (hphase : c.daphase.toNat < 2 ^ 26)
    (hplays : ∀ p < m, ((directStep inc)^[p] c).dacnt ≠ 0) :
    ((directStep inc)^[m] c).dacnt.toNat + slotsCrossed c.daphase.toNat inc m = c.dacnt.toNat := by
  induction m with
  | zero => rfl
  | succ m ih =>
    have hstep := directStep_dacnt (inc := inc) (hplays m m.lt_succ_self)
    rw [← Function.iterate_succ_apply' (directStep inc), directStep_iterate_queueSlot inc _ hphase,
      directStep_iterate_queueSlot inc _ hphase] at hstep
    rw [slotsCrossed_succ, add_comm (slotsCrossed _ _ _), ← add_assoc, hstep]
    exact ih fun p hp => hplays p (Nat.lt_succ_of_lt hp)

/-- Where no advance can cross two slots, the advances that change the slot are the slots crossed (rule R262). -/
theorem slotsCrossed_of_le {inc : Nat} (hinc : inc ≤ 65536) (phase p : Nat) :
    slotsCrossed phase inc p + phase / 2 ^ 16 = (phase + p * inc) / 2 ^ 16 := by
  induction p with
  | zero => simp [slotsCrossed]
  | succ p ih =>
    rw [slotsCrossed_succ, slotAfter, slotAfter, Nat.succ_mul, ← add_assoc phase]
    split <;> omega

/-- What a play of `m` samples says of the count: above 0 before each of them, and fallen by the advances that change
the slot. -/
theorem Plays.count {inc n m : Nat} {c : Channel} (h : Plays inc n c m) (hphase : c.daphase.toNat < 2 ^ 26) :
    (∀ p < m, slotsCrossed c.daphase.toNat inc p < c.dacnt.toNat)
      ∧ ((directStep inc)^[m] c).dacnt.toNat + slotsCrossed c.daphase.toNat inc m = c.dacnt.toNat := by
  obtain ⟨-, hplays, -⟩ := h
  refine ⟨fun p hp => ?_, dacnt_add_slotsCrossed hphase hplays⟩
  have hne := hplays p hp
  have hcount := dacnt_add_slotsCrossed hphase fun q hq => hplays q (hq.trans hp)
  bv_omega

theorem voice_incDa (s : State) (n : Nat) (ch : Chan) :
    (s.voice n ch).incDa = s.cfg.clock / s.chip.rate.toNat * 2 ^ 16 % 2 ^ 32 / s.cfg.daDivisor :=
  incDa_eq _ _

/-- A channel that plays direct audio at a period above 0, over a tick: the channel after the tick and the cells of the
tick. -/
theorem directAudio_tick {n : BitVec 24} {s t : State} {ch : Chan} (hready : s.tickReady n)
    (hexec : exec (.tick n) s = .next t) (hsel : selectGenerator ch (s.chip.chan ch) = .directAudio)
    (hperiod : 0 < (s.chip.chan ch).freqHi.toNat % 16 * 256 + (s.chip.chan ch).freqLo.toNat) :
    ∃ m, Plays (s.voice n.toNat ch).incDa n.toNat (s.chip.chan ch) m
      ∧ t.chip.chan ch = (directStep (s.voice n.toNat ch).incDa)^[m] (s.chip.chan ch)
      ∧ s.channelCells n.toNat ch =
        (sampleLoop (directSample (s.valuesAt n.toNat) (s.voice n.toNat ch)) m (s.chip.chan ch)).2
          ++ silence (s.valuesAt n.toNat) (n.toNat - m) := by
  rw [← period_eq] at hperiod
  obtain ⟨m, hm, heq⟩ :=
    playLoop_eq_sampleLoop (s.valuesAt n.toNat) (s.voice n.toNat ch) n.toNat (s.chip.chan ch)
  have hrun : runGenerator (s.valuesAt n.toNat) (s.voice n.toNat ch) (s.chip.chan ch) = _ :=
    (runGenerator_of_directAudio hsel _ _).trans ((if_neg hperiod.ne').trans heq)
  refine ⟨m, hm, ?_, congrArg Prod.snd hrun⟩
  rw [chan_of_exec_tick hready hexec, hrun]
  exact sampleLoop_fst _ _ _

/-- The cells of the samples played: that of sample `p` is the queue cell at the slot after `p` advances (rule R132). -/
theorem directSample_cell {s : State} {n m i : Nat} {ch : Chan} (hphase : (s.chip.chan ch).daphase.toNat < 2 ^ 26)
    (hi : i < m * slotsOf s.chip.stereo) :
    (sampleLoop (directSample (s.valuesAt n) (s.voice n ch)) m (s.chip.chan ch)).2[i]? =
      some (scaledCell s.cfg.divRound (center (memRead (s.chip.chan ch).daq
        (slotAfter (s.chip.chan ch).daphase.toNat (s.voice n ch).incDa (i / slotsOf s.chip.stereo))))
        (s.slotBalance ch i)) := by
  obtain ⟨phase, count, hframe⟩ :=
    directStep_iterate_frame (s.voice n ch).incDa (i / slotsOf s.chip.stereo) (s.chip.chan ch)
  have hdaq : ((directStep (s.voice n ch).incDa)^[i / slotsOf s.chip.stereo] (s.chip.chan ch)).daq =
      (s.chip.chan ch).daq := by rw [hframe]
  rw [← directStep_iterate_queueSlot (s.voice n ch).incDa _ hphase, ← hdaq]
  exact sampleLoop_emit_cell (value := fun c => center (memRead c.daq c.queueSlot.toNat)) (fun _ => rfl) hi _

/-- The cells of a tick in which `m` samples are played: theirs, then silence (rule R136). -/
theorem directSample_cell_or_silence {s : State} {n m i : Nat} {ch : Chan}
    (hphase : (s.chip.chan ch).daphase.toNat < 2 ^ 26) (hi : i < n * slotsOf s.chip.stereo) :
    ((sampleLoop (directSample (s.valuesAt n) (s.voice n ch)) m (s.chip.chan ch)).2
        ++ silence (s.valuesAt n) (n - m))[i]? =
      some (if i / slotsOf s.chip.stereo < m then
        scaledCell s.cfg.divRound (center (memRead (s.chip.chan ch).daq
          (slotAfter (s.chip.chan ch).daphase.toNat (s.voice n ch).incDa (i / slotsOf s.chip.stereo))))
          (s.slotBalance ch i)
      else 0) := by
  have hslots : 0 < slotsOf s.chip.stereo := Nat.pos_of_mul_pos_left (Nat.zero_lt_of_lt hi)
  have hlen : (sampleLoop (directSample (s.valuesAt n) (s.voice n ch)) m (s.chip.chan ch)).2.length =
      m * slotsOf s.chip.stereo := sampleLoop_length (fun _ => emit_length _ _ _) m _
  simp only [Nat.div_lt_iff_lt_mul hslots]
  split
  · next hplayed =>
    rw [List.getElem?_append_left (by rwa [hlen])]
    exact directSample_cell hphase hplayed
  · next hplayed =>
    rw [not_lt] at hplayed
    rw [List.getElem?_append_right (by rwa [hlen]), hlen]
    refine silence_getElem? ?_
    rw [Nat.sub_mul]
    exact Nat.sub_lt_sub_right hplayed hi

/-- Settles O22: the player is skipped at T = 0, and with nothing pending it only pads. -/
theorem directAudioIsSilentAtZeroPeriodOrEmptyQueue : Obligations.DirectAudioIsSilentAtZeroPeriodOrEmptyQueue := by
  intro n s t ch hready hexec hsel hsilent
  rw [← period_eq] at hsilent
  have hdirect : directGenerator (s.valuesAt n.toNat) (s.voice n.toNat ch) (s.chip.chan ch) =
      (s.chip.chan ch, silence (s.valuesAt n.toNat) n.toNat) := by
    unfold directGenerator
    split
    · rfl
    · next hperiod => exact playLoop_empty _ _ _ _ (hsilent.resolve_left hperiod)
  have hrun := (runGenerator_of_directAudio hsel (s.valuesAt n.toNat) (s.chip.chan ch)).trans hdirect
  exact ⟨(chan_of_exec_tick hready hexec ch).trans (congrArg Prod.fst hrun), congrArg Prod.snd hrun⟩

/-- Settles O23: the channel after the tick is that of the samples played. -/
theorem directAudioConsumesTheSlotsItCrosses : Obligations.DirectAudioConsumesTheSlotsItCrosses := by
  intro n s t ch inc hinc hready ⟨_, hphase, _⟩ hexec hsel hperiod
  obtain ⟨m, hm, hchan, -⟩ := directAudio_tick hready hexec hsel hperiod
  rw [voice_incDa, ← hinc] at hm hchan
  obtain ⟨hplays, hcount⟩ := hm.count hphase
  obtain ⟨hle, -, hend⟩ := hm
  rw [hchan]
  refine ⟨?_, m, hle, hend, hplays, hcount, directStep_iterate_daphase inc m hphase, fun hslow => ?_⟩
  · obtain ⟨phase, count, hframe⟩ := directStep_iterate_frame inc m (s.chip.chan ch)
    rw [hframe]
  · have hcrossed := slotsCrossed_of_le hslow (s.chip.chan ch).daphase.toNat
    refine ⟨fun p hp => ?_, ?_⟩
    · rw [← hcrossed]
      exact Nat.add_lt_add_right (hplays p hp) _
    · rw [← hcrossed, ← add_assoc, hcount]

/-- Settles O24: a cell below `m * SLOTS` belongs to a sample played, whose channel has made its advances and has the
queue's cells unchanged; a cell from there on is padding. -/
theorem directAudioCellsPlayTheQueueThenSilence : Obligations.DirectAudioCellsPlayTheQueueThenSilence := by
  intro n s t ch inc hinc hready ⟨_, hphase, _⟩ hexec hsel hperiod
  obtain ⟨m, hm, hchan, hcells⟩ := directAudio_tick hready hexec hsel hperiod
  rw [voice_incDa, ← hinc] at hm hchan
  obtain ⟨hplays, hcount⟩ := hm.count hphase
  obtain ⟨hle, -, hend⟩ := hm
  rw [hchan]
  refine ⟨m, hle, hplays, fun hlt => ⟨?_, hend hlt⟩, directStep_iterate_daphase inc m hphase, fun i hi => ?_⟩
  · simpa [hend hlt] using hcount
  · rw [hcells, hinc, ← voice_incDa s n.toNat ch]
    exact directSample_cell_or_silence hphase hi

end Sys2Proof.Machine
end

section
/-! PROOF. The wave generator's statement (42_wave_generator.md): the centring rule (rule R117). -/

namespace Sys2Proof.Machine

/-! ### The centring rule, one equation for each half of the raw range -/

theorem center_of_le {raw : Amp} (h : raw.toNat ≤ 15) : center raw = raw.toNat - 16 := if_pos h

theorem center_of_ge {raw : Amp} (h : 16 ≤ raw.toNat) : center raw = raw.toNat - 15 := if_neg (by omega)

/-- The lower half ends at -1 and the upper half begins at 1. -/
theorem center_ne_zero (raw : Amp) : center raw ≠ 0 := by
  rcases Nat.lt_or_ge raw.toNat 16 with hlow | hhigh
  · rw [center_of_le (Nat.le_of_lt_succ hlow)]
    omega
  · rw [center_of_ge hhigh]
    omega

/-- Settles O32: the two halves' equations, and the bound on the magnitude the scaled sample already needed. -/
theorem centerIsSymmetricWithoutZero : Obligations.CenterIsSymmetricWithoutZero := by
  intro raw
  have hmag := center_natAbs_le raw
  exact ⟨center_of_le, center_of_ge, center_ne_zero raw, by omega, by omega⟩

end Sys2Proof.Machine
end

section
/-! PROOF. The noise generator's statements (44_noise_generator.md): the volume (rule R151), one step of the shift
register (R154), the tick divider (R153), and a tick of the generator (R155 to R157). -/

namespace Sys2Proof.Machine

/-! ### The volume (rule R151) -/

/-- The two shifted masks are the two nibbles, doubled. -/
theorem volumeTerm_eq (b : Byte) : volumeTerm b = 2 * max (b.toNat / 16) (b.toNat % 16) := by
  revert b
  decide

theorem noiseVolume_eq (gvol : Byte) (c : Channel) :
    noiseVolume gvol c = 2 * max (gvol.toNat / 16) (gvol.toNat % 16) + c.ctrl.toNat % 32
      + 2 * max (c.bal.toNat / 16) (c.bal.toNat % 16) := by
  rw [noiseVolume, volumeTerm_eq, volumeTerm_eq, vol_eq]

/-- Two nibbles of at most 15, each doubled, and a voice volume of at most 31. -/
theorem noiseVolume_le (gvol : Byte) (c : Channel) : noiseVolume gvol c ≤ 91 := by
  have hgvol := gvol.isLt
  have hbal := c.bal.isLt
  rw [noiseVolume_eq]
  omega

/-- Settles O33: the bound on the volume keeps the index inside the table's 32 entries. -/
theorem noiseVolumeAddsThreeTerms : Obligations.NoiseVolumeAddsThreeTerms := by
  intro cfg gvol c
  have hle := noiseVolume_le gvol c
  have hidx : noiseVolume gvol c - 60 < 32 := by omega
  refine ⟨noiseVolume_eq gvol c, hle, ?_⟩
  rw [tableVolume, Vector.get_eq_getElem, Vector.getElem?_toList, Vector.getElem?_eq_getElem hidx]
  simp only [Fin.val_ofNat, Nat.mod_eq_of_lt hidx]

/-! ### One step of the shift register (rule R154) -/

/-- A step writes the shift register and the level, and no other element. -/
theorem lfsrStep_frame (tap : Word) (c : Channel) :
    lfsrStep tap c = { c with lfsr := (lfsrStep tap c).lfsr, nlevel := (lfsrStep tap c).nlevel } := by
  unfold lfsrStep
  split <;> rfl

theorem bit19_eq (w : Word) : w.getLsbD 19 = decide (w.toNat / 2 ^ 19 % 2 = 1) :=
  Nat.testBit_eq_decide_div_mod_eq

theorem shiftLeft_one_eq_ofNat (w : Word) : w <<< 1 = BitVec.ofNat 32 (w.toNat * 2) := by
  apply BitVec.eq_of_toNat_eq
  rw [BitVec.toNat_shiftLeft, BitVec.toNat_ofNat, Nat.shiftLeft_eq, pow_one]

/-- Settles O30: the two branches of a step, its shift read as a doubling. -/
theorem lfsrStepTestsBitNineteen : Obligations.LfsrStepTestsBitNineteen := by
  refine ⟨rfl, rfl, fun tap c => ⟨fun hset => ?_, fun hclear => ?_⟩⟩
  · rw [BitVec.ofNat_or, ← shiftLeft_one_eq_ofNat]
    exact if_pos (by rw [bit19_eq, hset]; rfl)
  · rw [← shiftLeft_one_eq_ofNat]
    exact if_neg (by rw [bit19_eq, hclear]; decide)

/-! ### The tick divider (rule R153) -/

/-- One pass: the counter keeps the remainder modulo the rate, which is the sum itself below it, and where the sum
reaches the rate the shift register makes one step. -/
theorem noiseDivider_eq (t : TickValues) {ninc k : Nat} {c : Channel} (hk : k = (c.noiseK.toNat + ninc) % 2 ^ 32) :
    noiseDivider t ninc c = { c with
      noiseK := BitVec.ofNat 32 (k % t.rate)
      lfsr := if 1 ≤ k / t.rate then (lfsrStep t.cfg.noiseTap c).lfsr else c.lfsr
      nlevel := if 1 ≤ k / t.rate then (lfsrStep t.cfg.noiseTap c).nlevel else c.nlevel } := by
  rw [noiseDivider, ← hk, ← Nat.mod_eq_sub]
  split
  · rw [lfsrStep_frame, lfsrStep_lfsr, lfsrStep_lfsr, lfsrStep_nlevel, lfsrStep_nlevel]
  · next hbelow =>
    have hmod : k % t.rate = k := by
      rw [not_le, Nat.lt_one_iff] at hbelow
      rw [Nat.mod_eq_sub, hbelow, Nat.mul_zero, Nat.sub_zero]
    rw [hmod]

/-- Settles O26: the sum divided by the rate is at least 1 exactly where the sum reaches the rate. -/
theorem noiseDividerStepsAtMostOnce : Obligations.NoiseDividerStepsAtMostOnce := by
  intro t ninc k c hrate hk
  rw [noiseDivider_eq t hk]
  simp only [Nat.one_le_div_iff hrate]
  refine ⟨fun hbelow => ?_, fun hreached => ?_⟩
  · simp only [if_neg hbelow.not_ge, Nat.mod_eq_of_lt hbelow]
  · simp only [if_pos hreached]

theorem noiseDivider_noiseK {t : TickValues} (hrate : t.rate < 2 ^ 32) (hpos : 0 < t.rate) {ninc : Nat} {c : Channel}
    (hsum : c.noiseK.toNat + ninc < 2 ^ 32) :
    (noiseDivider t ninc c).noiseK.toNat = (c.noiseK.toNat + ninc) % t.rate := by
  rw [noiseDivider_eq t rfl, Nat.mod_eq_of_lt hsum, BitVec.toNat_ofNat]
  exact Nat.mod_eq_of_lt ((Nat.mod_lt _ hpos).trans hrate)

/-- From the first pass on the counter is below the rate, so no sum of a later pass reaches 2^32. -/
theorem noiseDivider_iterate_noiseK {t : TickValues} (hrate : t.rate < 2 ^ 31) (hpos : 0 < t.rate) {ninc : Nat}
    (hninc : ninc ≤ 2 ^ 31) {c : Channel} (hk : c.noiseK.toNat < 2 ^ 31) (p : Nat) :
    ((noiseDivider t ninc)^[p + 1] c).noiseK.toNat = (c.noiseK.toNat + (p + 1) * ninc) % t.rate := by
  induction p with
  | zero =>
    rw [zero_add, one_mul]
    exact noiseDivider_noiseK (by omega) hpos (by omega)
  | succ p ih =>
    have hlt := Nat.mod_lt (c.noiseK.toNat + (p + 1) * ninc) hpos
    rw [← ih] at hlt
    rw [Function.iterate_succ_apply', noiseDivider_noiseK (by omega) hpos (by omega), ih, Nat.mod_add_mod, add_assoc,
      ← Nat.succ_mul]

/-- The divider writes the counter, the shift register and the level, and no other element. -/
theorem noiseDivider_iterate_frame (t : TickValues) (ninc p : Nat) (c : Channel) :
    ∃ k reg level, (noiseDivider t ninc)^[p] c = { c with noiseK := k, lfsr := reg, nlevel := level } := by
  refine Function.Iterate.rec
    (fun d : Channel => ∃ k reg level, d = { c with noiseK := k, lfsr := reg, nlevel := level })
    ⟨c.noiseK, c.lfsr, c.nlevel, rfl⟩ ?_ p
  rintro _ ⟨k, reg, level, rfl⟩
  exact ⟨_, _, _, noiseDivider_eq t rfl⟩

/-! ### A noise channel in a tick (rules R152, R155, R156) -/

theorem runGenerator_of_noise {v : ChannelValues} (h : v.gen = .noise) (t : TickValues) (c : Channel) :
    runGenerator t v c = sampleLoop (noiseSample t v) t.n c := by
  rw [runGenerator, h]
  rfl

theorem noiseIncrement_eq (c : Channel) : noiseIncrement c = 3000 + c.noise.toNat % 32 * 512 := by
  rw [noiseIncrement, Channel.noiseRate, BitVec.extractLsb'_toNat]
  rfl

/-- Settles O25: the channel after the tick is that of N passes of the divider. -/
theorem noiseTickCountsModuloTheRate : Obligations.NoiseTickCountsModuloTheRate := by
  intro n s t ch hready hn hk hexec hsel
  have hchan : t.chip.chan ch =
      (noiseDivider (s.valuesAt n.toNat) (noiseIncrement (s.chip.chan ch)))^[n.toNat] (s.chip.chan ch) := by
    rw [chan_of_exec_tick hready hexec, runGenerator_of_noise hsel]
    exact sampleLoop_fst _ _ _
  rw [noiseIncrement_eq] at hchan
  obtain ⟨-, hrate, -, -⟩ := hready
  refine ⟨?_, hchan, ?_⟩
  · obtain ⟨k, reg, level, hframe⟩ := noiseDivider_iterate_frame (s.valuesAt n.toNat)
      (3000 + (s.chip.chan ch).noise.toNat % 32 * 512) n.toNat (s.chip.chan ch)
    rw [hchan, hframe]
  · obtain ⟨p, hp⟩ := Nat.exists_eq_succ_of_ne_zero hn.ne'
    have hlt : s.chip.rate.toNat < 2 ^ 31 := s.chip.rate.isLt.trans (by decide)
    have hpos : 0 < s.chip.rate.toNat := by bv_omega
    rw [hchan, hp]
    exact noiseDivider_iterate_noiseK hlt hpos (by omega) hk p

/-- Cell `i` of a noise channel in a tick: that of the level after the pass of its own sample, whatever its slot. -/
theorem channelCells_getElem?_of_noise {s : State} {n i : Nat} {ch : Chan}
    (hsel : selectGenerator ch (s.chip.chan ch) = .noise) (hi : i < n * slotsOf s.chip.stereo) :
    (s.channelCells n ch)[i]? = some (noiseCell s.cfg.divRound
      ((noiseDivider (s.valuesAt n) (noiseIncrement (s.chip.chan ch)))^[i / slotsOf s.chip.stereo + 1]
        (s.chip.chan ch)).nlevel (tableVolume s.cfg s.chip.gvol (s.chip.chan ch))) := by
  have hcells : s.channelCells n ch = (sampleLoop (noiseSample (s.valuesAt n) (s.voice n ch)) n (s.chip.chan ch)).2 :=
    congrArg Prod.snd (runGenerator_of_noise hsel _ _)
  have hlen (c : Channel) : (noiseSample (s.valuesAt n) (s.voice n ch) c).2.length = slotsOf s.chip.stereo :=
    List.length_replicate
  have hslot : i % slotsOf s.chip.stereo < slotsOf s.chip.stereo :=
    Nat.mod_lt _ (Nat.pos_of_mul_pos_left (Nat.zero_lt_of_lt hi))
  rw [hcells, sampleLoop_getElem? hlen hi, Function.iterate_succ_apply']
  exact List.getElem?_replicate.trans (if_pos hslot)

/-- Settles O27: the level of a cell is that after its sample's pass of the divider. -/
theorem noiseCellsFollowTheLevel : Obligations.NoiseCellsFollowTheLevel := by
  intro n s ch hsel i hi
  rw [← noiseIncrement_eq]
  exact channelCells_getElem?_of_noise hsel hi

/-- Settles O28: every cell stands at some index below N × SLOTS, and the level there is one of two. -/
theorem noiseEmitsOnlyTwoValues : Obligations.NoiseEmitsOnlyTwoValues := by
  intro n s ch hsel b hb
  obtain ⟨i, hi⟩ := List.mem_iff_getElem?.mp hb
  have hlt : i < n * slotsOf s.chip.stereo := by
    obtain ⟨hlen, -⟩ := List.getElem?_eq_some_iff.mp hi
    rwa [State.channelCells, runGenerator_length] at hlen
  rw [channelCells_getElem?_of_noise hsel hlt, Option.some_inj] at hi
  subst hi
  cases ((noiseDivider (s.valuesAt n) (noiseIncrement (s.chip.chan ch)))^[i / slotsOf s.chip.stereo + 1]
    (s.chip.chan ch)).nlevel with
  | plus => exact .inl rfl
  | minus => exact .inr rfl

/-! ### What the noise depends on (rule R157) -/

/-- The shift register, the counter and the level of the two channels agree. -/
abbrev sameNoise (c d : Channel) : Prop := c.lfsr = d.lfsr ∧ c.noiseK = d.noiseK ∧ c.nlevel = d.nlevel

theorem noiseDivider_sameNoise (t : TickValues) (ninc : Nat) {c d : Channel} (h : sameNoise c d) :
    sameNoise (noiseDivider t ninc c) (noiseDivider t ninc d) := by
  obtain ⟨hreg, hk, hlevel⟩ := h
  rw [noiseDivider_eq t (c := c) rfl, noiseDivider_eq t (c := d) rfl]
  simp only [sameNoise, lfsrStep_lfsr, lfsrStep_nlevel, hreg, hk, hlevel, and_self]

/-- Two loops whose samples emit the same cells from related channels, and keep them related. -/
theorem sampleLoop_related {f g : Channel → Channel × List Byte} {R : Channel → Channel → Prop}
    (hcells : ∀ c d, R c d → (f c).2 = (g d).2) (hnext : ∀ c d, R c d → R (f c).1 (g d).1) (n : Nat) {c d : Channel}
    (h : R c d) : (sampleLoop f n c).2 = (sampleLoop g n d).2 ∧ R (sampleLoop f n c).1 (sampleLoop g n d).1 := by
  induction n generalizing c d with
  | zero => exact ⟨rfl, h⟩
  | succ n ih =>
    obtain ⟨hrest, hend⟩ := ih (hnext c d h)
    rw [sampleLoop_succ, sampleLoop_succ]
    exact ⟨congrArg₂ _ (hcells c d h) hrest, hend⟩

/-- Settles O29: a pass of the divider keeps the noise states alike, and a sample's cells are made from the level. -/
theorem noiseOutputDependsOnNoiseStateAlone : Obligations.NoiseOutputDependsOnNoiseStateAlone := by
  intro t v w c d hv hw htv hninc hreg hk hlevel
  rw [runGenerator_of_noise hv, runGenerator_of_noise hw]
  have hpass (x y : Channel) (h : sameNoise x y) : sameNoise (noiseDivider t v.ninc x) (noiseDivider t w.ninc y) := by
    rw [hninc]
    exact noiseDivider_sameNoise t w.ninc h
  refine sampleLoop_related (R := sameNoise) (fun x y h => ?_) hpass t.n ⟨hreg, hk, hlevel⟩
  obtain ⟨-, -, hsame⟩ := hpass x y h
  rw [noiseSample, noiseSample, hsame, htv]

end Sys2Proof.Machine
end

section
/-! PROOF. The balance and mixer statements (45_balance_mixer.md): generator selection (rules R172, R173), the balances
(R176), the mixer (R178 to R181), and the whole TICK command (R170, R179). -/

namespace Sys2Proof.Machine

/-! ### Generator selection (rule R172) -/

theorem selectGenerator_of_off (ch : Chan) {c : Channel} (hon : c.on = false) : selectGenerator ch c = .off :=
  if_pos hon

theorem selectGenerator_of_direct (ch : Chan) {c : Channel} (hon : c.on = true) (h : c.dda = true ∨ c.dacnt ≠ 0) :
    selectGenerator ch c = .directAudio := by
  rw [selectGenerator, if_neg (by simp [hon]), if_pos h]

/-- Without direct audio: noise on the channels that have it, else tone or silence. -/
theorem selectGenerator_of_not_direct (ch : Chan) {c : Channel} (hon : c.on = true) (hdda : c.dda = false)
    (hcount : c.dacnt = 0) :
    selectGenerator ch c =
      if 4 ≤ ch.val ∧ c.noiseEnable = true then .noise else if 0 < c.period then .tone else .silent := by
  rw [selectGenerator, if_neg (by simp [hon]), if_neg (by simp [hdda, hcount])]

/-- Settles O18: one equation for each test of the selection, the period read as a number. -/
theorem selectionFollowsItsPriority : Obligations.SelectionFollowsItsPriority := by
  intro ch c
  refine ⟨selectGenerator_of_off ch, fun hon hdirect => ?_, fun hon hdda hcount => ?_⟩
  · exact selectGenerator_of_direct ch hon (hdirect.imp_right fun hpos => by bv_omega)
  · rw [selectGenerator_of_not_direct ch hon hdda hcount, period_eq]
    refine ⟨fun hch hne => if_pos ⟨hch, hne⟩, fun hnone => ?_⟩
    have hnoise : ¬(4 ≤ ch.val ∧ c.noiseEnable = true) := fun ⟨hch, hne⟩ =>
      hnone.elim hch.not_gt fun hclear => Bool.false_ne_true (hclear.symm.trans hne)
    rw [if_neg hnoise]
    exact ⟨fun hperiod => if_pos hperiod, fun hperiod => if_neg hperiod.not_gt⟩

/-! ### Channels that stand still (rule R173) -/

theorem runGenerator_of_still {v : ChannelValues} (h : v.gen = .off ∨ v.gen = .silent) (t : TickValues) (c : Channel) :
    runGenerator t v c = (c, silence t t.n) := by
  obtain h | h := h <;> rw [runGenerator, h]

/-- Settles O19: an OFF or SILENT channel's turn returns the channel itself and silence. -/
theorem offAndSilentChannelsStandStill : Obligations.OffAndSilentChannelsStandStill := by
  intro n s t ch hready hexec hsel
  have hrun := runGenerator_of_still (v := s.voice n.toNat ch) hsel (s.valuesAt n.toNat) (s.chip.chan ch)
  exact ⟨(chan_of_exec_tick hready hexec ch).trans (congrArg Prod.fst hrun), congrArg Prod.snd hrun⟩

/-! ### The balances (rule R176) -/

theorem sideBalance_vol (cfg : Config) (nibble : Nat) (c : Channel) :
    sideBalance cfg nibble c.vol = nibble * (c.ctrl.toNat % 32) * cfg.balNum / cfg.balDen := by
  rw [sideBalance, vol_eq]

/-- At the ratio 11/10 a balance is at most `15 * 31 * 11 / 10 = 511`. -/
theorem sideBalance_le {cfg : Config} (hnum : cfg.balNum = 11) (hden : cfg.balDen = 10) {nibble : Nat}
    (hnibble : nibble ≤ 15) (c : Channel) : sideBalance cfg nibble c.vol ≤ 511 := by
  have hprod : nibble * (c.ctrl.toNat % 32) ≤ 15 * 31 := Nat.mul_le_mul hnibble (by omega)
  rw [sideBalance_vol, hnum, hden]
  omega

theorem leftNibble_le (b : Byte) : leftNibble b ≤ 15 := by
  have hb := b.isLt
  rw [leftNibble_eq]
  omega

theorem rightNibble_le (b : Byte) : rightNibble b ≤ 15 := by
  rw [rightNibble_eq]
  omega

/-- Settles O34: the fields read as numbers, and the bound of each side, which their average keeps. -/
theorem balancesAreFlooredOnce : Obligations.BalancesAreFlooredOnce := by
  intro cfg n chip ch c v
  have hleft : v.lbal = sideBalance cfg (leftNibble c.bal) c.vol := rfl
  have hright : v.rbal = sideBalance cfg (rightNibble c.bal) c.vol := rfl
  have hmid : v.mbal = (v.lbal + v.rbal) / 2 := rfl
  refine ⟨?_, ?_, hmid, fun hnum hden => ?_⟩
  · rw [hleft, sideBalance_vol, leftNibble_eq]
  · rw [hright, sideBalance_vol, rightNibble_eq]
  · have hl : v.lbal ≤ 511 := sideBalance_le hnum hden (leftNibble_le c.bal) c
    have hr : v.rbal ≤ 511 := sideBalance_le hnum hden (rightNibble_le c.bal) c
    exact ⟨hl, hr, by omega⟩

/-! ### The registers and the buffers of a tick (rules R170, R174, R179) -/

theorem chip_eq_of_registers {c d : Chip} (hgvol : c.gvol = d.gvol) (hstereo : c.stereo = d.stereo)
    (hrate : c.rate = d.rate) : c = { d with chans := c.chans, scr := c.scr, dest := c.dest } := by
  cases c
  cases hgvol
  cases hstereo
  cases hrate
  rfl

/-- A tick writes the channels and the two buffers, and no chip-level register. -/
theorem tickChip_frame (cfg : Config) (n : Nat) (chip : Chip) :
    tickChip cfg n chip = { chip with
      chans := (tickChip cfg n chip).chans, scr := (tickChip cfg n chip).scr, dest := (tickChip cfg n chip).dest } := by
  obtain ⟨hgvol, hstereo, hrate⟩ := tickChannels_keeps (t := tickValues cfg n chip) (start := chip)
    (P := fun c => c.gvol = chip.gvol ∧ c.stereo = chip.stereo ∧ c.rate = chip.rate)
    ⟨rfl, rfl, rfl⟩ (fun _ _ h => h) channelOrder
  exact chip_eq_of_registers ((forgetUnspecified_gvol _ _).trans hgvol) ((forgetUnspecified_stereo _ _).trans hstereo)
    ((forgetUnspecified_rate _ _).trans hrate)

/-- The zero fill makes at least `N × SLOTS` cells, and no channel's turn changes how many there are. -/
theorem cells_le_tickChannels_dest_length (t : TickValues) (start : Chip) (order : List Chan) :
    t.cells ≤ (tickChannels t start order).dest.length := by
  refine tickChannels_keeps (P := fun c => t.cells ≤ c.dest.length) ?_ (fun c ch hc => ?_) order
  · rw [zeroFill_dest, List.length_append, List.length_replicate]
    exact Nat.le_add_right _ _
  · rwa [tickChannel_dest_length]

theorem sampleOut_of_exec_tick {n : BitVec 24} {s t : State} (hready : s.tickReady n)
    (h : exec (.tick n) s = .next t) :
    t.sampleOut = (tickChannels (s.valuesAt n.toNat) s.chip channelOrder).dest.take (s.valuesAt n.toNat).cells := by
  rw [exec_tick_of_ready hready] at h
  cases h
  exact tickChip_dest_take s.cfg n.toNat s.chip

theorem sampleOut_length_of_exec_tick {n : BitVec 24} {s t : State} (hready : s.tickReady n)
    (h : exec (.tick n) s = .next t) : t.sampleOut.length = (s.valuesAt n.toNat).cells := by
  rw [sampleOut_of_exec_tick hready h]
  exact List.length_take_of_le (cells_le_tickChannels_dest_length _ _ _)

/-- Settles O15: the answer of a ready tick, its frame, and the length of what its channels accumulated. -/
theorem tickCompletesAndDeliversItsSamples : Obligations.TickCompletesAndDeliversItsSamples := by
  intro n s hready
  have hexec := exec_tick_of_ready hready
  exact ⟨_, hexec, rfl, tickChip_frame s.cfg n.toNat s.chip, sampleOut_length_of_exec_tick hready hexec, rfl⟩

/-! ### A tick of no samples (rule R170) -/

theorem runGenerator_zero {t : TickValues} (hn : t.n = 0) (v : ChannelValues) (c : Channel) :
    runGenerator t v c = (c, []) := by
  have hsilence : silence t 0 = [] := by rw [silence, Nat.zero_mul, List.replicate_zero]
  rw [runGenerator]
  cases v.gen with
  | off => simp only [hn, hsilence]
  | silent => simp only [hn, hsilence]
  | directAudio => simp only [directGenerator, hn, hsilence, playLoop_zero, ite_self]
  | noise => simp only [noiseGenerator, hn, sampleLoop_zero]
  | tone => simp only [toneGenerator, hn, sampleLoop_zero]

theorem tickChip_scr_zero (cfg : Config) (chip : Chip) : (tickChip cfg 0 chip).scr = chip.scr := by
  refine Eq.trans (congrArg Chip.scr (forgetUnspecified_zero rfl _)) ?_
  refine tickChannels_keeps (P := fun c => c.scr = chip.scr) rfl (fun c ch hc => ?_) channelOrder
  rw [tickChannel, mix_scr, generate_eq, runGenerator_zero rfl]
  exact hc

theorem tickChip_zero (cfg : Config) (chip : Chip) : tickChip cfg 0 chip = chip := by
  have hchans : (tickChip cfg 0 chip).chans = chip.chans :=
    chans_ext fun ch => by rw [tickChip_chan, runGenerator_zero rfl]
  rw [tickChip_frame, hchans, tickChip_scr_zero, tickChip_dest_zero]

/-- Settles O16: every element of the Chip State is as it was, and the first 0 destination cells are delivered. -/
theorem tickOfNoSamplesChangesNothing : Obligations.TickOfNoSamplesChangesNothing := by
  intro s hready
  have hzero : (0 : BitVec 24).toNat = 0 := rfl
  rw [exec_tick_of_ready hready, hzero, tickChip_zero, Nat.zero_mul, List.take_zero]
  rfl

/-! ### The mixer: what a channel adds to a cell (rule R178) -/

/-- The scratch cells channel `ch` produces in a tick that starts in the Chip State `start` (rule R175). -/
def turnCells (t : TickValues) (start : Chip) (ch : Chan) : List Byte :=
  (runGenerator t (channelValues t start.gvol ch (start.chan ch)) (start.chan ch)).2

/-- What channel `ch` adds to destination cell `i`; nothing where it has no scratch cell `i`. -/
def contribution (t : TickValues) (start : Chip) (i : Nat) (ch : Chan) : Int :=
  readScratch t.cfg.scratchRead ((turnCells t start ch).getD i 0) * slotGain t i

theorem channelCells_eq_turnCells (s : State) (n : Nat) (ch : Chan) :
    s.channelCells n ch = turnCells (s.valuesAt n) s.chip ch := rfl

theorem mixCell_eq_add (t : TickValues) (i : Nat) (b : Byte) (d : Sample) :
    mixCell t i b d = d + BitVec.ofInt 16 (readScratch t.cfg.scratchRead b * slotGain t i) := by
  rw [mixCell, BitVec.ofInt_add, BitVec.ofInt_toInt]

theorem readScratch_zero (r : ScratchRead) : readScratch r 0 = 0 := by
  cases r <;> rfl

theorem mixCell_zero (t : TickValues) (i : Nat) (d : Sample) : mixCell t i 0 d = d := by
  rw [mixCell_eq_add, readScratch_zero, Int.zero_mul]
  exact BitVec.add_zero d

/-- Each destination cell gains its scratch cell; one without a scratch cell gains nothing. -/
theorem mixCells_getElem? (t : TickValues) (i : Nat) (bs : List Byte) (ds : List Sample) (k : Nat) :
    (mixCells t i bs ds)[k]? = ds[k]?.map (mixCell t (i + k) (bs.getD k 0)) := by
  induction bs generalizing i ds k with
  | nil =>
    have hkeep : mixCell t (i + k) 0 = id := funext (mixCell_zero t (i + k))
    rw [mixCells_nil, List.getD_nil, hkeep, Option.map_id, id_eq]
  | cons b bs ih =>
    cases ds with
    | nil => rfl
    | cons d ds =>
      rw [mixCells]
      cases k with
      | zero => rfl
      | succ k =>
        rw [List.getElem?_cons_succ, List.getElem?_cons_succ, List.getD_cons_succ, ih,
          Nat.add_right_comm, Nat.add_assoc]

theorem tickChannel_dest_getElem? (t : TickValues) {start chip : Chip} {ch : Chan}
    (hchan : chip.chan ch = start.chan ch) (i : Nat) :
    (tickChannel t start chip ch).dest[i]? =
      chip.dest[i]?.map (· + BitVec.ofInt 16 (contribution t start i ch)) := by
  rw [tickChannel_dest, mixCells_getElem?, Nat.zero_add, hchan]
  exact congrArg (Option.map · _) (funext fun d => mixCell_eq_add _ _ _ d)

/-- The turns of distinct channels add up in every destination cell: each finds its own channel as the tick found it
(rule R181). -/
theorem foldl_tickChannel_dest_getElem? (t : TickValues) (start : Chip) (i : Nat) {order : List Chan}
    (hn : order.Nodup) {chip : Chip} (hchan : ∀ ch ∈ order, chip.chan ch = start.chan ch) :
    (order.foldl (tickChannel t start) chip).dest[i]? =
      chip.dest[i]?.map (· + BitVec.ofInt 16 (order.map (contribution t start i)).sum) := by
  induction order generalizing chip with
  | nil => simp
  | cons a rest ih =>
    obtain ⟨ha, hrest⟩ := List.nodup_cons.mp hn
    have hkept : ∀ ch ∈ rest, (tickChannel t start chip a).chan ch = start.chan ch := fun ch hch => by
      rw [tickChannel_chan, if_neg (ne_of_mem_of_not_mem hch ha)]
      exact hchan ch (List.mem_cons_of_mem a hch)
    rw [List.foldl_cons, ih hrest hkept, tickChannel_dest_getElem? t (hchan a List.mem_cons_self), Option.map_map,
      List.map_cons, List.sum_cons, BitVec.ofInt_add]
    exact congrArg (Option.map · _) (funext fun d => BitVec.add_assoc d _ _)

theorem tickChannels_dest_getElem? (t : TickValues) (start : Chip) {order : List Chan} (hn : order.Nodup) (i : Nat) :
    (tickChannels t start order).dest[i]? =
      (zeroFill t start).dest[i]?.map (· + BitVec.ofInt 16 (order.map (contribution t start i)).sum) :=
  foldl_tickChannel_dest_getElem? t start i hn fun _ _ => rfl

/-- Settles O39: the sum of the contributions to a cell, and the channels a generator runs on, are the same in any
order. -/
theorem channelOrderDoesNotMatter : Obligations.ChannelOrderDoesNotMatter := by
  intro cfg n chip order hperm
  have horder : channelOrder.Nodup := by decide
  have hn : order.Nodup := hperm.nodup_iff.mpr horder
  refine ⟨List.ext_getElem? fun i => ?_, fun ch => ?_⟩
  · rw [tickChannels_dest_getElem? _ _ hn, tickChannels_dest_getElem? _ _ horder, (hperm.map _).sum_eq]
  · simp only [tickChannels_chan _ _ hn, tickChannels_chan _ _ horder, hperm.mem_iff]

/-! ### The ranges of a contribution and of a sum (rule R180) -/

/-- The least value a scratch cell has under a reading. -/
def scratchLeast : ScratchRead → Int
  | .unsigned => 0
  | .signed => -128

/-- The greatest value a scratch cell has under a reading. -/
def scratchGreatest : ScratchRead → Int
  | .unsigned => 255
  | .signed => 127

/-- The signed reading is two's complement. -/
theorem readScratch_eq (r : ScratchRead) (b : Byte) :
    readScratch r b = if r = .signed ∧ 128 ≤ b.toNat then (b.toNat : Int) - 256 else b.toNat := by
  cases r with
  | unsigned => simp [readScratch]
  | signed =>
    simp only [readScratch, BitVec.toInt_eq_toNat_cond, true_and]
    split <;> split <;> omega

theorem readScratch_range (r : ScratchRead) (b : Byte) :
    scratchLeast r ≤ readScratch r b ∧ readScratch r b ≤ scratchGreatest r := by
  have hb := b.isLt
  cases r with
  | unsigned => exact ⟨Int.natCast_nonneg _, Int.ofNat_le.mpr (Nat.le_of_lt_succ hb)⟩
  | signed => exact ⟨BitVec.le_toInt b, Int.le_of_lt_add_one (BitVec.toInt_lt (x := b))⟩

theorem slotGain_eq (cfg : Config) (n : Nat) (chip : Chip) (i : Nat) :
    slotGain (tickValues cfg n chip) i =
      if chip.stereo then (if i % 2 = 0 then chip.gvol.toNat / 16 else chip.gvol.toNat % 16)
      else (chip.gvol.toNat / 16 + chip.gvol.toNat % 16) / 2 := by
  simp only [slotGain, tickValues, leftNibble_eq, rightNibble_eq]

theorem slotGain_le (cfg : Config) (n : Nat) (chip : Chip) (i : Nat) : slotGain (tickValues cfg n chip) i ≤ 15 := by
  have hg := chip.gvol.isLt
  rw [slotGain_eq]
  split
  · split <;> omega
  · omega

/-- A multiplier of at most 15 stretches a range around 0 at most 15 times. -/
theorem contribution_range (cfg : Config) (n : Nat) (chip : Chip) (i : Nat) (ch : Chan) :
    15 * scratchLeast cfg.scratchRead ≤ contribution (tickValues cfg n chip) chip i ch
      ∧ contribution (tickValues cfg n chip) chip i ch ≤ 15 * scratchGreatest cfg.scratchRead := by
  obtain ⟨hlo, hhi⟩ := readScratch_range cfg.scratchRead ((turnCells (tickValues cfg n chip) chip ch).getD i 0)
  have hgain : (slotGain (tickValues cfg n chip) i : Int) ≤ 15 := by exact_mod_cast slotGain_le cfg n chip i
  have hpos : (0 : Int) ≤ slotGain (tickValues cfg n chip) i := Int.natCast_nonneg _
  have hleast : scratchLeast cfg.scratchRead ≤ 0 := by cases cfg.scratchRead <;> decide
  have hgreatest : 0 ≤ scratchGreatest cfg.scratchRead := by cases cfg.scratchRead <;> decide
  rw [mul_comm 15, mul_comm 15]
  exact ⟨(mul_le_mul_of_nonpos_left hgain hleast).trans (mul_le_mul_of_nonneg_right hlo hpos),
    (mul_le_mul_of_nonneg_right hhi hpos).trans (mul_le_mul_of_nonneg_left hgain hgreatest)⟩

/-- Six channels, each with a multiplier of at most 15. -/
theorem sum_contribution_range (cfg : Config) (n : Nat) (chip : Chip) (i : Nat) :
    90 * scratchLeast cfg.scratchRead ≤ (channelOrder.map (contribution (tickValues cfg n chip) chip i)).sum
      ∧ (channelOrder.map (contribution (tickValues cfg n chip) chip i)).sum
        ≤ 90 * scratchGreatest cfg.scratchRead := by
  have hlo := List.card_nsmul_le_sum _ _
    (List.forall_mem_map.mpr fun ch (_ : ch ∈ channelOrder) => (contribution_range cfg n chip i ch).1)
  have hhi := List.sum_le_card_nsmul _ _
    (List.forall_mem_map.mpr fun ch (_ : ch ∈ channelOrder) => (contribution_range cfg n chip i ch).2)
  have hsix (a : Int) : 6 • (15 * a) = 90 * a := by ring
  rw [List.length_map] at hlo hhi
  exact ⟨(hsix _).symm.trans_le hlo, hhi.trans_eq (hsix _)⟩

/-! ### The delivered samples (rules R178 to R181) -/

theorem zeroFill_dest_getElem? {t : TickValues} {i : Nat} (hi : i < t.cells) (chip : Chip) :
    (zeroFill t chip).dest[i]? = some 0 := by
  rw [zeroFill_dest, List.getElem?_append_left (by simpa using hi), List.getElem?_replicate, if_pos hi]

theorem sample_eq_ofInt_sum {n : BitVec 24} {s t : State} (hready : s.tickReady n) (h : exec (.tick n) s = .next t)
    {i : Nat} {x : Sample} (hx : t.sampleOut[i]? = some x) :
    x = BitVec.ofInt 16 (channelOrder.map (contribution (s.valuesAt n.toNat) s.chip i)).sum := by
  have hi : i < (s.valuesAt n.toNat).cells := by
    obtain ⟨hlen, -⟩ := List.getElem?_eq_some_iff.mp hx
    rwa [sampleOut_length_of_exec_tick hready h] at hlen
  rw [sampleOut_of_exec_tick hready h, List.getElem?_take_of_lt hi, tickChannels_dest_getElem? _ _ (by decide),
    zeroFill_dest_getElem? hi, Option.map_some, Option.some_inj] at hx
  rw [← hx]
  exact BitVec.zero_add _

/-- No sum wraps: every range lies within 16 signed bits. -/
theorem sample_toInt_eq_sum {n : BitVec 24} {s t : State} (hready : s.tickReady n) (h : exec (.tick n) s = .next t)
    {i : Nat} {x : Sample} (hx : t.sampleOut[i]? = some x) :
    x.toInt = (channelOrder.map (contribution (s.valuesAt n.toNat) s.chip i)).sum := by
  obtain ⟨hlo, hhi⟩ := sum_contribution_range s.cfg n.toNat s.chip i
  have hleast : -2 ^ 15 ≤ 90 * scratchLeast s.cfg.scratchRead := by cases s.cfg.scratchRead <;> decide
  have hgreatest : 90 * scratchGreatest s.cfg.scratchRead < 2 ^ 15 := by cases s.cfg.scratchRead <;> decide
  rw [sample_eq_ofInt_sum hready h hx]
  exact BitVec.toInt_ofInt_eq_self (by decide) (hleast.trans hlo) (hhi.trans_lt hgreatest)

/-- Settles O37: the sum of the contributions, the reading and the multiplier written out. -/
theorem sampleIsTheSumOfTheChannels : Obligations.SampleIsTheSumOfTheChannels := by
  intro n s t hready hexec i x hx
  rw [sample_toInt_eq_sum hready hexec hx]
  refine congrArg List.sum (List.map_congr_left fun ch _ => ?_)
  rw [contribution, readScratch_eq, slotGain_eq, ← channelCells_eq_turnCells]
  push_cast
  rfl

/-- Settles O38: the range of the sum at the values of each reading. -/
theorem samplesStayInRange : Obligations.SamplesStayInRange := by
  intro n s t hready hexec x hx
  obtain ⟨i, hi⟩ := List.mem_iff_getElem?.mp hx
  have hrange := sum_contribution_range s.cfg n.toNat s.chip i
  rw [← sample_toInt_eq_sum hready hexec hi] at hrange
  refine ⟨fun hread => ?_, fun hread => ?_⟩ <;> rw [hread] at hrange <;> exact hrange

/-! ### Silence (rules R252, R254) -/

theorem contribution_of_off {t : TickValues} {start : Chip} {ch : Chan}
    (h : selectGenerator ch (start.chan ch) = .off) (i : Nat) : contribution t start i ch = 0 := by
  have hcells : turnCells t start ch = silence t t.n := congrArg Prod.snd (runGenerator_of_still (.inl h) t _)
  have hzero : (silence t t.n).getD i 0 = 0 := by
    rw [silence, List.getD_eq_getElem?_getD]
    exact List.getElem?_getD_replicate_default_eq _ _ _
  rw [contribution, hcells, hzero, readScratch_zero, Int.zero_mul]

/-- Settles O40: every channel is OFF, so it stands still and contributes nothing to any sample. -/
theorem disabledChannelsGiveSilence : Obligations.DisabledChannelsGiveSilence := by
  intro n s t hready hexec hoff
  have hsel (ch : Chan) : selectGenerator ch (s.chip.chan ch) = .off := selectGenerator_of_off ch (hoff ch)
  refine ⟨List.eq_replicate_iff.mpr ⟨sampleOut_length_of_exec_tick hready hexec, fun x hx => ?_⟩,
    chans_ext fun ch => ?_⟩
  · obtain ⟨i, hi⟩ := List.mem_iff_getElem?.mp hx
    have hsum : (channelOrder.map (contribution (s.valuesAt n.toNat) s.chip i)).sum = 0 :=
      List.sum_eq_zero fun _ hy => by
        obtain ⟨ch, -, rfl⟩ := List.mem_map.mp hy
        exact contribution_of_off (hsel ch) i
    rw [sample_eq_ofInt_sum hready hexec hi, hsum]
    rfl
  · exact (offAndSilentChannelsStandStill n s t ch hready hexec (.inl (hsel ch))).1

end Sys2Proof.Machine
end

section
/-! PROOF. The lifecycle and configuration statements (46_lifecycle_config.md): what `LC` is after a command (rule R205),
the status word (R204), INIT (R200) and SHUTDOWN (R201), and the two configuration registers (R202, R203). -/

namespace Sys2Proof.Machine

/-! ### The status word (rule R204) -/

/-- The lifecycle bit as a number (10_state.md rule R27). -/
theorem lifeCycleBit_toNat (lc : LifeCycle) : (lifeCycleBit lc).toNat = if lc = .run then 1 else 0 := by
  cases lc <;> rfl

theorem statusData_toNat (fault : BitVec 3) (lc : LifeCycle) :
    (statusData fault lc).toNat = 2 * fault.toNat + if lc = .run then 1 else 0 := by
  have hbit := (lifeCycleBit lc).isLt
  rw [statusData, BitVec.toNat_setWidth_of_le (by decide), BitVec.toNat_append, ← Nat.shiftLeft_add_eq_or_of_lt hbit,
    Nat.shiftLeft_eq, lifeCycleBit_toNat]
  omega

/-- Settles O5: the status data of the answer as a number, below a `STATUS` of 0. -/
theorem rdstatAnswersFaultAndLifecycle : Obligations.RdstatAnswersFaultAndLifecycle := by
  intro s
  refine ⟨answer (statusData s.fault s.lc) s, rfl, rfl, ?_⟩
  rw [answer_resp, responseWord_toNat, statusData_toNat]
  exact Nat.zero_add _

/-! ### The lifecycle state after a command (rule R205) -/

/-- No answer touches `LC` but those of INIT and SHUTDOWN; a fault is among them. -/
theorem ExecAnswer.keeps_lc {i : Instr} {s t : State} {r : Result} (h : ExecAnswer i s r) (ht : r = .next t)
    (hinit : i ≠ .init) (hshut : i ≠ .shutdown) : t.lc = s.lc := by
  cases h with
  | init h => exact absurd h hinit
  | shutdown h => exact absurd h hshut
  | parameters => cases ht
  | _ => cases ht; rfl

/-- In RUN the command switches the block off; in OFF its fault leaves it so. -/
theorem lc_of_exec_shutdown {s t : State} (h : exec .shutdown s = .next t) : t.lc = .off := by
  obtain ⟨-, hrun⟩ | ⟨hoff, hfault⟩ := whileRunning_cases s _
  · cases hrun.symm.trans h
    rfl
  · cases hfault.symm.trans h
    exact hoff

/-- Settles O47: INIT runs the block, SHUTDOWN leaves it off in either state, and every other answer keeps `LC`. -/
theorem lifecycleChangesByInitAndShutdownOnly : Obligations.LifecycleChangesByInitAndShutdownOnly := by
  intro i s t h
  split
  · next hinit =>
    subst hinit
    cases h
    rfl
  · next hinit =>
    split
    · next hshut =>
      subst hshut
      exact lc_of_exec_shutdown h
    · next hshut => exact (exec_answer i s).keeps_lc h hinit hshut

/-! ### INIT and SHUTDOWN (rules R200, R201) -/

/-- Settles O1: the elements of the reset Chip State, its channels by `resetChip_chan`. -/
theorem initSetsEveryElementToItsResetValue : Obligations.InitSetsEveryElementToItsResetValue := by
  intro s
  refine ⟨answer 0 { s with lc := .run, fault := 0, chip := resetChip s.cfg }, rfl, rfl, rfl, rfl, rfl, rfl, rfl, rfl,
    rfl, rfl, rfl, fun ch => ?_⟩
  rw [answer_chip, resetChip_chan]
  exact ⟨rfl, rfl, memRead_nil, memRead_nil, rfl, rfl, rfl, rfl, rfl, rfl⟩

/-- Settles O2: in RUN the answer of the command, in OFF the fault of the lifecycle test. -/
theorem shutdownLeavesOnlyFault : Obligations.ShutdownLeavesOnlyFault := fun _ =>
  ⟨fun hrun => whileRunning_run hrun _, fun hoff => whileRunning_off_faulted hoff _⟩

/-! ### The configuration registers (rules R202, R203) -/

/-- Settles O3: in RUN the answer of the command, in OFF the fault of the lifecycle test. -/
theorem cfgrateSetsOnlyRate : Obligations.CfgrateSetsOnlyRate := fun _ _ =>
  ⟨fun hrun => whileRunning_run hrun _, fun hoff => whileRunning_off_faulted hoff _⟩

/-- A flag operand in range is bit 0 of the immediate. -/
theorem flagOperand_of_le {imm : BitVec 24} (h : imm.toNat ≤ 1) : flagOperand imm = some (imm.getLsbD 0) := by
  obtain rfl | rfl : imm = 0 ∨ imm = 1 := by bv_omega
  · rfl
  · rfl

/-- Settles O4: an operand in range is bit 0, behind which stands the lifecycle test; any other operand is illegal. -/
theorem cfgstereoSetsOnlyStereo : Obligations.CfgstereoSetsOnlyStereo := by
  intro imm s
  refine ⟨fun himm hrun => ?_, fun himm hoff => ?_, fun hbad => ?_⟩
  · exact (withOperand_some (flagOperand_of_le himm) s _).trans (whileRunning_run hrun _)
  · exact (withOperand_some (flagOperand_of_le himm) s _).trans (whileRunning_off_faulted hoff _)
  · exact withOperand_illegal (.inl ((flagOperand_none_iff imm).mpr hbad))

end Sys2Proof.Machine
end

section
/-! PROOF. The fault statements (60_exceptions.md): what each fault is raised for (rules R221, R223 to R225), that it has
no other effect (R222), that FAULT is sticky (R222, R227), and that every step answers (R220, R222, R234). -/

namespace Sys2Proof.Machine

/-! ### What raises a fault (rules R221, R223 to R225) -/

/-- The ranges of a command with a channel and an index operand (30_encoding.md rule R63). -/
theorem bankOperands_le {ch : BitVec 3} {idx : Byte} {bound : Nat}
    (h : (channelInRange ch && decide (idx.toNat ≤ bound)) = true) : ch.toNat ≤ 5 ∧ idx.toNat ≤ bound := by
  simpa [channelInRange] using h

/-- Settles O41: the operands of a well-formed command are in range, so its lifecycle test is reached and raises the
fault. -/
theorem offRaisesNotRunning : Obligations.OffRaisesNotRunning := by
  intro i s hwf hinit hrdstat hoff
  cases i with
  | init => exact absurd rfl hinit
  | rdstat => exact absurd rfl hrdstat
  | shutdown | cfgrate | wrgvol | tick | rdgvol => exact whileRunning_off_faulted hoff _
  | cfgstereo imm =>
    have himm : imm.toNat ≤ 1 := of_decide_eq_true hwf
    exact withOperand_eq_of_forall (mt (flagOperand_none_iff imm).mp (by omega)) fun _ =>
      whileRunning_off_faulted hoff _
  | pushda ch data =>
    have hch : ch.toNat ≤ 5 := of_decide_eq_true hwf
    exact withOperand_eq_of_forall (channelOperand_ne_none hch) fun _ => whileRunning_off_faulted hoff _
  | wrreg ch idx data =>
    obtain ⟨hch, hidx⟩ := bankOperands_le hwf
    exact bankCommand_off hch (mt (writeRegOperand_none_iff idx).mp (by omega)) hoff _
  | rdreg ch idx =>
    obtain ⟨hch, hidx⟩ := bankOperands_le hwf
    exact bankCommand_off hch (mt (readRegOperand_none_iff idx).mp (by omega)) hoff _
  | wrwave ch idx data | rdwave ch idx =>
    obtain ⟨hch, hidx⟩ := bankOperands_le hwf
    exact bankCommand_off hch (mt (waveOperand_none_iff idx).mp (by omega)) hoff _

/-- Settles O42: of the cases of `step_cases`, the refused word leaves the fault. -/
theorem illegalWordRaisesIllegalCommand : Obligations.IllegalWordRaisesIllegalCommand := by
  intro s w rest hin hdec
  obtain ⟨hnil, -⟩ | ⟨w', rest', hin', hstep⟩ := step_cases s
  · simp [hin] at hnil
  · obtain ⟨rfl, rfl⟩ : w = w' ∧ rest = rest' := List.cons.inj (hin.symm.trans hin')
    obtain ⟨-, hstep⟩ | ⟨i, hdec', -⟩ := hstep
    · exact hstep.trans (raise_faulted .illegalCommand _)
    · simp [hdec] at hdec'

/-- Settles O43: behind the lifecycle test, the first of TICK's own tests. -/
theorem tickWithoutRateFaults : Obligations.TickWithoutRateFaults := fun _ s hrun hrate =>
  (whileRunning_run hrun _).trans ((if_pos hrate).trans (raise_faulted .rateNotConfigured s))

/-- Settles O44: behind the lifecycle test, the second of TICK's own tests. -/
theorem tickBeyondTheBufferFaults : Obligations.TickBeyondTheBufferFaults := fun _ s hrun hrate hbig =>
  (whileRunning_run hrun _).trans ((if_neg hrate).trans ((if_pos hbig).trans (raise_faulted .bufferTooSmall s)))

/-! ### The effect of a fault (rule R222) -/

/-- `STATUS` of a response word, as a number (30_encoding.md rule R65). -/
theorem responseWord_toNat_status (st : BitVec 3) (d : BitVec 16) :
    (responseWord st d).toNat / 2 ^ 16 % 8 = st.toNat := by
  have hst := st.isLt
  have hd := d.isLt
  rw [responseWord_toNat]
  omega

theorem faulted_resp_status (code : BitVec 3) (s : State) :
    (faulted code s).resp.toNat / 2 ^ 16 % 8 = code.toNat := by
  have hcode := code.isLt
  show (BitVec.ofNat 32 (code.toNat * 2 ^ 16)).toNat / 2 ^ 16 % 8 = code.toNat
  rw [BitVec.toNat_ofNat]
  omega

/-- A command that answers took a fault, or its response has `STATUS` 0. -/
theorem ExecAnswer.faulted_or_ok {i : Instr} {s t : State} {r : Result} (h : ExecAnswer i s r) (ht : r = .next t) :
    (∃ f, t = Machine.faulted (faultCode f) s) ∨ ∃ d, t.resp = responseWord 0 d := by
  cases h with
  | faulted f => cases ht; exact .inl ⟨f, rfl⟩
  | parameters => cases ht
  | _ => cases ht; exact .inr ⟨_, rfl⟩

/-- Settles O45: only a fault shows a code, and the code it shows is its own. -/
theorem faultedCommandHasNoOtherEffect : Obligations.FaultedCommandHasNoOtherEffect := by
  intro i s t h hstatus
  obtain ⟨f, rfl⟩ | ⟨d, hresp⟩ := (exec_answer i s).faulted_or_ok h
  · rw [faulted_resp_status, BitVec.ofNat_toNat, BitVec.setWidth_eq]
    exact ⟨rfl, faultCode_toNat_le f⟩
  · rw [hresp, responseWord_toNat_status] at hstatus
    exact absurd rfl hstatus

/-! ### FAULT is sticky (rules R222, R227) -/

/-- No answer of a command but INIT's overwrites a recorded fault. -/
theorem ExecAnswer.keeps_fault {i : Instr} {s t : State} {r : Result} (h : ExecAnswer i s r) (ht : r = .next t)
    (hinit : i ≠ .init) (hfault : s.fault ≠ 0) : t.fault = s.fault := by
  cases h with
  | faulted f => cases ht; exact recordFault_sticky hfault (faultCode f)
  | init h => exact absurd h hinit
  | parameters => cases ht
  | _ => cases ht; rfl

/-- INIT has one word (30_encoding.md rule R63). -/
theorem decode_eq_init_iff (w : Word) : decode w = some .init ↔ w = 0x10000000#32 := by
  rw [decode_eq_some_iff]
  exact ⟨fun ⟨_, h⟩ => h.symm, fun h => ⟨rfl, h.symm⟩⟩

/-- Settles O46: an idle step and an illegal word keep FAULT, neither with INIT's word on the port; of the commands INIT
clears it and any other keeps it. -/
theorem faultIsClearedByInitOnly : Obligations.FaultIsClearedByInitOnly := by
  intro s t h hfault
  obtain ⟨hin, hstep⟩ | ⟨w, rest, hin, ⟨hdec, hstep⟩ | ⟨i, hdec, hstep⟩⟩ := step_cases s <;> rw [hstep] at h <;>
    simp only [hin, List.head?_nil, List.head?_cons, Option.some.injEq, ne_eq, ← decode_eq_init_iff]
  · cases h
    exact ⟨fun _ => rfl, fun hword => nomatch hword⟩
  · cases h
    exact ⟨fun _ => recordFault_sticky hfault _, fun hword => nomatch hdec.symm.trans hword⟩
  · rw [hdec, Option.some.injEq]
    refine ⟨fun hi => (exec_answer i { s with cmdIn := rest }).keeps_fault h hi hfault, ?_⟩
    rintro rfl
    cases h
    rfl

/-! ### Every step answers (rules R220, R222, R234) -/

/-- Settles O50: of the cases of `step_cases`, the empty port leaves the first. -/
theorem blockHoldsItsStateBetweenCommands : Obligations.BlockHoldsItsStateBetweenCommands := by
  intro s hnil
  obtain ⟨-, hstep⟩ | ⟨w, rest, hin, -⟩ := step_cases s
  · exact hstep
  · simp [hnil] at hin

/-- With lawful parameters no command stops the block: the one stop of `ExecAnswer` is on excluded parameters. -/
theorem ExecAnswer.exists_next {i : Instr} {s : State} {r : Result} (h : ExecAnswer i s r)
    (hlaw : s.cfg.lawful = true) : ∃ t : State, r = .next t := by
  cases h with
  | parameters n _ hunlawful => simp [hlaw] at hunlawful
  | _ => exact ⟨_, rfl⟩

/-- Settles O51: an idle step and an illegal word's fault are next states, and so is what a command answers. -/
theorem everyStepAnswersANextState : Obligations.EveryStepAnswersANextState := by
  intro s hlaw
  obtain ⟨-, hstep⟩ | ⟨w, rest, -, ⟨-, hstep⟩ | ⟨i, -, hstep⟩⟩ := step_cases s <;> rw [hstep]
  · exact ⟨_, rfl⟩
  · exact ⟨_, raise_eq _ _⟩
  · exact (exec_answer i _).exists_next hlaw

end Sys2Proof.Machine
end
